-- ==== Sys2Proof/Word.lean ====
section
/-! DEFINITION. The word types of the ACE-128 position decoder (00_scope.md R7, R9). -/

namespace Sys2Proof

/-- A request word `req[9:0]` (30_encoding.md R70). -/
abbrev ReqWord := BitVec 10

/-- A packed code, 0 to 255, `c[7]` its most-significant bit (R7 CODE_W, R9). -/
abbrev Code := BitVec 8

/-- A position, 0 to 127 (R7 POS_W, R9). -/
abbrev Pos := BitVec 7

/-- One 8-bit word of the position ROM (10_state.md R25). -/
abbrev Byte := BitVec 8

/-- A handle index k = 0..7; handle 0 is the most-significant pin (R7 N_PINS, 41_sample_pack.md R120). -/
abbrev Pin := Fin 8

end Sys2Proof
end

