-- ==== Sys2Proof/Syntax.lean ====
section
/-! DEFINITION. The four requests, one constructor per row of spec/opcode_table.json (30_encoding.md R71, R73). -/

namespace Sys2Proof

/-- A request. Only LOOKUP has an operand (R72); the bits 7:0 of the other three are ignored and are
no part of the instruction. -/
inductive Instr where
  /-- READ: sample, pack, look up (42_read.md R140). -/
  | read
  /-- READ_ANGLE: READ followed by the angle unit (43_read_angle.md R165). -/
  | readAngle
  /-- SAMPLE: sample and pack (41_sample_pack.md R125). -/
  | sample
  /-- LOOKUP c: the table entry of code c (40_table_lookup.md R106). -/
  | lookup (c : Code)
  deriving DecidableEq, Repr

end Sys2Proof
end

