-- ==== Sys2Proof/WellFormed.lean ====
section
/-! DEFINITION. Well-formedness of instructions. -/

namespace Sys2Proof

/-- Every instruction is well formed: R74 has no illegal, reserved or partial request, and LOOKUP's
operand is bounded by its type, `Code`. (The assembler's lines, whose operand and pin answers are not
bounded by their types, have their checks in Machine/Asm.lean; the position table has its own,
`Config.TableOk`.) -/
def Instr.wellFormed : Instr → Bool
  | .read => true
  | .readAngle => true
  | .sample => true
  | .lookup _ => true

end Sys2Proof
end

