-- ==== Sys2Proof/Decode.lean ====
section
/-! DEFINITION. Request decoding and encoding (30_encoding.md R70 to R75, R78). -/

namespace Sys2Proof

/-- The op field, bits 9:8 (R70). -/
def reqOp (w : ReqWord) : BitVec 2 := w.extractLsb' 8 2

/-- The code field, bits 7:0 (R70); used as it is by LOOKUP, ignored by the others (R72). -/
def reqCode (w : ReqWord) : Code := w.extractLsb' 0 8

/-- Decoding is total: the four values of the op field are the four operations (R71, R73, R74). -/
def decode (w : ReqWord) : Instr :=
  if reqOp w = 0b00#2 then .read
  else if reqOp w = 0b01#2 then .readAngle
  else if reqOp w = 0b10#2 then .sample
  else .lookup (reqCode w)

/-- Why a number is no request word. -/
inductive DecodeError where
  /-- The number needs more than the ten bits of the one request format (R70). -/
  | tooWide
  deriving DecidableEq, Repr

/-- Decoding of any number at all: a number of ten bits is a request word, and a wider one is none,
because R70 has "no other length, prefix, mode bit or compressed form". -/
def decodeBits (w : Nat) : Except DecodeError Instr :=
  if w < 1024 then .ok (decode (BitVec.ofNat 10 w)) else .error .tooWide

/-- The host's question: the instruction read from the bits `w`, bit 0 the least significant bit of
the one request word. The width the table gives a row adds nothing, since R70 has one width. -/
def decodeTableWord (_nbits w : Nat) : Option Instr :=
  match decodeBits w with
  | .ok i => some i
  | .error _ => none

/-- The canonical word of an instruction: the row's match value with its ignored bits 0, and
`0x300 | c` for `LOOKUP c` (R72, R73, R78). -/
def encode : Instr → ReqWord
  | .read => 0x000#10
  | .readAngle => 0x100#10
  | .sample => 0x200#10
  | .lookup c => 0x300#10 ||| c.setWidth 10

/-- One row of the opcode map: a word `w` belongs to the row when `w & mask = pattern` (R73). -/
structure OpcodeRow where
  mnemonic : String
  pattern : ReqWord
  mask : ReqWord
  deriving DecidableEq, Repr

/-- The complete opcode map of R73. -/
def opcodeMap : List OpcodeRow :=
  [⟨"READ", 0x000#10, 0x300#10⟩, ⟨"READ_ANGLE", 0x100#10, 0x300#10⟩,
   ⟨"SAMPLE", 0x200#10, 0x300#10⟩, ⟨"LOOKUP", 0x300#10, 0x300#10⟩]

/-- Does the word belong to the row? -/
def OpcodeRow.accepts (r : OpcodeRow) (w : ReqWord) : Bool := w &&& r.mask == r.pattern

/-- The mnemonic of an instruction, as R73 spells it. -/
def Instr.mnemonic : Instr → String
  | .read => "READ"
  | .readAngle => "READ_ANGLE"
  | .sample => "SAMPLE"
  | .lookup _ => "LOOKUP"

end Sys2Proof
end

