-- ==== Sys2Proof/Config.lean ====
section
/-! DEFINITION. The open parameters of 00_scope.md R8: what is fixed when the block is built or
constructed and what the spec leaves open. Each parameter is an opaque constant with no body, so
nothing proved of the machine rests on a value of it. -/

namespace Sys2Proof

/-- FALLBACK_ANGLE, the angle READ_ANGLE returns for an invalid code: 10.0 or 0.0 (R8, R164). -/
inductive Fallback where
  | ten
  | zero
  deriving DecidableEq, Repr, Inhabited

/-- ANGLE_CONV, the range convention (R8, R161). -/
inductive AngleConv where
  | zeroBased
  | centred
  deriving DecidableEq, Repr, Inhabited

/-- ANGLE_FMT, the floating-point format of the angle (R8, R160). -/
inductive AngleFmt where
  | binary64
  | binary32
  deriving DecidableEq, Repr, Inhabited

/-- How the angle unit is built: a 128-entry ROM, or a multiplier by the constant C (R26, R167). -/
inductive AngleUnit where
  | lut
  | multiplier
  deriving DecidableEq, Repr, Inhabited

/-- The configuration that is fixed when the block is built (10_state.md R24). ENTRY46 is no field of
its own: it is the position the table assigns to code 46 (R8, R104). -/
structure Build where
  fallback : Fallback
  conv : AngleConv
  fmt : AngleFmt
  unit : AngleUnit
  deriving DecidableEq, Repr, Inhabited

namespace Config

/-- What R101 to R104 demand of TABLE, and all that may be assumed of it (R100). -/
structure TableOk (t : Code → Option Pos) : Prop where
  /-- R101: exactly 128 of the 256 codes are valid. -/
  count : ((List.range 256).filter fun c => (t (BitVec.ofNat 8 c)).isSome).length = 128
  /-- R102: every position has exactly one code. -/
  bijection : ∀ p : Pos, ∃! c : Code, t c = some p
  /-- R103: TABLE(0) = Some(0). -/
  code0 : t 0#8 = some 0#7
  /-- R104: TABLE(46) = Some(ENTRY46), ENTRY46 in {27, 37}. -/
  code46 : t 46#8 = some 27#7 ∨ t 46#8 = some 37#7

/-- An ASSUMED table, no table of the hardware: codes below 128 stand for themselves, but that 46 and
`e` change places. It shows that R101 to R104 can be met, and the tests run on it. -/
def assumedTable (e : Pos) (c : Code) : Option Pos :=
  if 128 ≤ c.toNat then none
  else if c = 46#8 then some e
  else if c = e.setWidth 8 then some 46#7
  else some (c.setWidth 7)

theorem assumedTable_code (e p : Pos) (c : Code) (h : assumedTable e c = some p) :
    c = if p = 46#7 then e.setWidth 8 else if p = e then 46#8 else p.setWidth 8 := by
  unfold assumedTable at h
  split at h
  · cases h
  · rename_i hc
    have hc' : c = (c.setWidth 7).setWidth 8 := by
      apply BitVec.eq_of_toNat_eq
      simp only [BitVec.toNat_setWidth]
      omega
    split at h
    · rename_i h46
      cases h
      subst h46
      split <;> rename_i he
      · subst he
        rfl
      · simp
    · split at h
      · rename_i h46 he
        cases h
        simp [he]
      · rename_i h46 he
        cases h
        have h1 : ¬ c.setWidth 7 = 46#7 := fun h => h46 (by rw [hc', h]; rfl)
        have h2 : ¬ c.setWidth 7 = e := fun h => he (by rw [hc', h])
        simp [h1, h2, ← hc']

theorem assumedTable_at (e p : Pos) :
    assumedTable e (if p = 46#7 then e.setWidth 8 else if p = e then 46#8 else p.setWidth 8)
      = some p := by
  revert e p
  decide +kernel

theorem assumedTable_ok27 : TableOk (assumedTable 27#7) where
  count := by decide +kernel
  bijection p := ⟨_, assumedTable_at 27#7 p, fun c h => assumedTable_code 27#7 p c h⟩
  code0 := by decide
  code46 := .inl (by decide)

theorem assumedTable_ok37 : TableOk (assumedTable 37#7) where
  count := by decide +kernel
  bijection p := ⟨_, assumedTable_at 37#7 p, fun c h => assumedTable_code 37#7 p c h⟩
  code0 := by decide
  code46 := .inr (by decide)

/-- A table together with the proof that it meets R101 to R104, as R100 asks. -/
structure ValidTable where
  entry : Code → Option Pos := assumedTable 27#7
  ok : TableOk entry := by exact assumedTable_ok27
  deriving Inhabited

/-- A binding of every instance's eight handles to physical inputs (R8 PIN_BINDING). It is injective,
and no input serves two instances (R6, 70_reset_and_hazards.md R232, R233). -/
structure ValidBinding where
  line : Nat → Pin → Nat := fun n k => 8 * n + k.val
  exclusive : ∀ n k n' k', line n k = line n' k' → n = n' ∧ k = k' := by
    intro n k n' k' h
    refine ⟨by omega, Fin.ext (by omega)⟩
  deriving Inhabited

/-- The type that PinErr's values are of: open, any type, the empty one and uncountable ones included (R8; log
entry 6). LinOrd are the types with a linear order, which every type has: it is asked for because it brings the
equality test that states are compared with, and nothing uses the order. -/
opaque payloadType : LinOrd.{0}

/-- TABLE, the contents of the position ROM: open, constrained by R101 to R104 only (R8, R100;
log entry 3). -/
opaque table : ValidTable

/-- FALLBACK_ANGLE, ANGLE_CONV, ANGLE_FMT and the realisation of the angle unit: open (R8; log
entries 4 and 22). -/
opaque build : Build

/-- PIN_BINDING: open, outside the block (R8, 20_memory.md R52; log entry 7). -/
opaque pinBinding : ValidBinding

/-- N_INSTANCES - 1: open, N_INSTANCES is at least 1 (R8, 60_exceptions.md R215; log entry 8). -/
opaque moreInstances : Nat

end Config

/-- PinErr, the payload of a pin-read failure: a parameter (R8), of which nothing is known, not even that there
is one. No operation looks into it, and a state that is written out does not show it. -/
inductive PinErr where
  | mk {payload : Config.payloadType}
  deriving DecidableEq, Repr

end Sys2Proof
end

