-- ==== Sys2Proof/Machine/Angle.lean ====
section
/-! DEFINITION. The angle unit (43_read_angle.md R160 to R167, 00_scope.md R11): correctly rounded
floating-point arithmetic, AngleOf, the fallback angle, and the two ways to build the unit. -/

namespace Sys2Proof.Machine

/-- An angle as it is delivered: a bit pattern of ANGLE_FMT, in the IEEE 754 layout (R57, R77). -/
inductive Angle where
  | binary64 (bits : BitVec 64)
  | binary32 (bits : BitVec 32)
  deriving DecidableEq, Repr

/-- A finite floating-point number: (-1)^neg * man * 2^exp. No NaN, infinity or subnormal arises (R160),
so no other kind is needed. -/
structure Fp where
  neg : Bool
  man : Nat
  exp : Int
  deriving DecidableEq, Repr

/-- The number a finite floating-point number stands for. -/
def Fp.value (x : Fp) : ℚ := (if x.neg then -1 else 1) * x.man * (2 : ℚ) ^ x.exp

/-- Significand bits of the format, the leading one included (IEEE 754, 93 K1). -/
def fmtPrec : AngleFmt → Nat
  | .binary64 => 53
  | .binary32 => 24

/-- Exponent bias of the format (IEEE 754, 93 K1). -/
def fmtBias : AngleFmt → Nat
  | .binary64 => 1023
  | .binary32 => 127

/-- Exponent bits of the format (IEEE 754, 93 K1). -/
def fmtExpBits : AngleFmt → Nat
  | .binary64 => 11
  | .binary32 => 8

/-- The smallest whole-number quotient step: `num / den` scaled by 2^s, as a numerator and a denominator. -/
def scaleBy (s : Int) (num den : Nat) : Nat × Nat :=
  match s with
  | .ofNat n => (num * 2 ^ n, den)
  | .negSucc n => (num, den * 2 ^ (n + 1))

/-- The power of two that brings `num / den` into the interval from 2^(prec-1) to 2^prec. -/
def scaleFor (prec num den : Nat) : Int :=
  let s : Int := (prec : Int) + (Nat.log2 den : Int) - (Nat.log2 num : Int)
  if 2 ^ prec * (scaleBy s num den).2 ≤ (scaleBy s num den).1 then s - 1 else s

/-- A quotient rounded to a whole number, to nearest, ties to even (R11, R160). -/
def divNearestEven (num den : Nat) : Nat :=
  let q := num / den
  let r := num % den
  if den < 2 * r ∨ (2 * r = den ∧ q % 2 = 1) then q + 1 else q

/-- fl_F of the rational (-1)^neg * (num / den) * 2^e: round to nearest, ties to even, in a format of
`prec` significand bits (R11, R160). The exponent is not bounded: no result of R161 leaves the normal
range (R160). -/
def roundRat (prec : Nat) (neg : Bool) (num den : Nat) (e : Int) : Fp :=
  if num = 0 then ⟨false, 0, 0⟩
  else
    let s := scaleFor prec num den
    let q := divNearestEven (scaleBy s num den).1 (scaleBy s num den).2
    if q = 2 ^ prec then ⟨neg, 2 ^ (prec - 1), e - s + 1⟩ else ⟨neg, q, e - s⟩

/-- mul_F (R11). -/
def mulF (f : AngleFmt) (a b : Fp) : Fp :=
  roundRat (fmtPrec f) (xor a.neg b.neg) (a.man * b.man) 1 (a.exp + b.exp)

/-- div_F (R11); the divisor is not zero in any use (R161 divides by 127). -/
def divF (f : AngleFmt) (a b : Fp) : Fp :=
  roundRat (fmtPrec f) (xor a.neg b.neg) a.man b.man (a.exp - b.exp)

/-- The signed significand of a number at the exponent `e`, which is not above its own. -/
def Fp.signedAt (e : Int) (x : Fp) : Int :=
  (if x.neg then -1 else 1) * (x.man * 2 ^ (x.exp - e).toNat : Nat)

/-- sub_F (R11): the exact difference, rounded once. -/
def subF (f : AngleFmt) (a b : Fp) : Fp :=
  let e := min a.exp b.exp
  let d := a.signedAt e - b.signedAt e
  roundRat (fmtPrec f) (decide (d < 0)) d.natAbs 1 e

/-- A whole number below 2^prec, exact in the format. -/
def Fp.ofNat (n : Nat) : Fp := ⟨false, n, 0⟩

/-- The bit pattern of a number whose significand is normalised, as a number of 1 + expBits + prec - 1
bits: sign, biased exponent, fraction (R57, IEEE 754). -/
def Fp.pattern (f : AngleFmt) (x : Fp) : Nat :=
  let sign := if x.neg then 2 ^ (fmtExpBits f + fmtPrec f - 1) else 0
  if x.man = 0 then sign
  else sign + (x.exp + fmtBias f + fmtPrec f - 1).toNat * 2 ^ (fmtPrec f - 1) + (x.man - 2 ^ (fmtPrec f - 1))

/-- The angle with the bit pattern of a number. -/
def Fp.toAngle (f : AngleFmt) (x : Fp) : Angle :=
  match f with
  | .binary64 => .binary64 (BitVec.ofNat 64 (x.pattern .binary64))
  | .binary32 => .binary32 (BitVec.ofNat 32 (x.pattern .binary32))

/-- The finite number a bit pattern stands for (zero and normal numbers, the only ones that arise). -/
def Fp.ofPattern (f : AngleFmt) (b : Nat) : Fp :=
  let frac := b % 2 ^ (fmtPrec f - 1)
  let ex := b / 2 ^ (fmtPrec f - 1) % 2 ^ fmtExpBits f
  let neg := decide (b / 2 ^ (fmtExpBits f + fmtPrec f - 1) % 2 = 1)
  if ex = 0 then ⟨neg, 0, 0⟩
  else ⟨neg, 2 ^ (fmtPrec f - 1) + frac, (ex : Int) - fmtBias f - (fmtPrec f - 1 : Nat)⟩

/-- The format of a delivered angle. -/
def Angle.fmt : Angle → AngleFmt
  | .binary64 _ => .binary64
  | .binary32 _ => .binary32

/-- The number a delivered angle stands for. -/
def Angle.value : Angle → ℚ
  | .binary64 b => (Fp.ofPattern .binary64 b.toNat).value
  | .binary32 b => (Fp.ofPattern .binary32 b.toNat).value

/-- PI_F = fl_F(π), as the bit pattern R163 gives (general knowledge, 93 K2). PRESUMED (log entry 15). -/
def piF (f : AngleFmt) : Fp :=
  match f with
  | .binary64 => Fp.ofPattern .binary64 0x400921FB54442D18
  | .binary32 => Fp.ofPattern .binary32 0x40490FDB

/-- TWO_PI_F = mul_F(2, PI_F) (R161). -/
def twoPiF (f : AngleFmt) : Fp := mulF f (Fp.ofNat 2) (piF f)

/-- C = div_F(TWO_PI_F, 127), the constant of the multiplier (R26, R161). -/
def angleStep (f : AngleFmt) : Fp := divF f (twoPiF f) (Fp.ofNat 127)

/-- BASE(p) = mul_F(C, p) (R161). -/
def angleBase (f : AngleFmt) (p : Pos) : Fp := mulF f (angleStep f) (Fp.ofNat p.toNat)

/-- AngleOf(p) (R161). -/
def angleOf (f : AngleFmt) (v : AngleConv) (p : Pos) : Angle :=
  match v with
  | .zeroBased => (angleBase f p).toAngle f
  | .centred => (subF f (angleBase f p) (piF f)).toAngle f

/-- ANGLE_ROM: 128 words, word p holds AngleOf(p) (R26, R51, R167). -/
def angleRom (f : AngleFmt) (v : AngleConv) : List Angle :=
  (List.range 128).map fun n => angleOf f v (BitVec.ofNat 7 n)

/-- An angle whose bits are all zero: +0.0, and the idle value of the response port (R30, R164). -/
def Angle.zero : AngleFmt → Angle
  | .binary64 => .binary64 0#64
  | .binary32 => .binary32 0#32

/-- The angle unit as it is built: ANGLE_ROM read at p, or the multiplier (R26, R167). All 128 words are
populated (R51), so the ROM's default is never delivered. -/
def angleUnit (b : Build) (p : Pos) : Angle :=
  match b.unit with
  | .multiplier => angleOf b.fmt b.conv p
  | .lut => (angleRom b.fmt b.conv).getD p.toNat (Angle.zero b.fmt)

/-- FALLBACK_ANGLE as its exact value in ANGLE_FMT; ANGLE_CONV does not offset it (R164, D23). -/
def fallbackAngle (b : Build) : Angle :=
  match b.fallback, b.fmt with
  | .ten, .binary64 => .binary64 0x4024000000000000#64
  | .ten, .binary32 => .binary32 0x41200000#32
  | .zero, f => Angle.zero f

/-- What READ_ANGLE answers for a table entry (R165). -/
def angleFor (b : Build) : Option Pos → Angle
  | some p => angleUnit b p
  | none => fallbackAngle b

end Sys2Proof.Machine
end

