-- ==== Sys2Proof/Machine/Rom.lean ====
section
/-! DEFINITION. The position ROM: 256 read-only words of 8 bits (10_state.md R25, 20_memory.md R50,
R61), and its one operation, RomRead (40_table_lookup.md R105). -/

namespace Sys2Proof.Machine

/-- The ROM's contents, as (address, word) pairs in one canonical form (`Memory.wf`). An address that is
not listed reads as 0x00, the word R25 gives an invalid code (log entry 20). There is no write: the ROM
"has no write port", and no writable address space exists (R25, R53). -/
abbrev Memory := List Host.Cell

/-- The canonical form: addresses strictly rising and inside the 256 words of R50, and no listed word
equal to what an unlisted address reads as. -/
def Memory.wf (m : Memory) : Bool :=
  decide (m.Pairwise fun x y => x.1 < y.1) && m.all fun x => decide (x.1 < 256) && x.2 != 0#8

/-- The word at an address. -/
def Memory.read : Memory → Nat → Byte
  | [], _ => 0#8
  | (a, w) :: m, x => if a = x then w else Memory.read m x

/-- The word of a table entry: `{valid, pos[6:0]}`, and 0x00 for None (R25). -/
def romWord : Option Pos → Byte
  | some p => 1#1 ++ p
  | none => 0#8

/-- POS_ROM built from a table: word c is the word of TABLE(c) (R25); words of 0x00 are not listed. -/
def romImage (t : Code → Option Pos) : Memory :=
  (List.range 256).filterMap fun c =>
    match t (BitVec.ofNat 8 c) with
    | some p => some (c, romWord (some p))
    | none => none

/-- RomRead(POS_ROM, c): the word's valid bit says whether its position is present (R105). It has no
side effect and cannot fail. -/
def romRead (m : Memory) (c : Code) : Option Pos :=
  let w := Memory.read m c.toNat
  if w.getLsbD 7 then some (w.extractLsb' 0 7) else none

end Sys2Proof.Machine
end

