-- ==== Sys2Proof/Machine/State.lean ====
section
/-! DEFINITION. The machine's state as plain data, the outcomes that are no next state, and reset
(10_state.md R20 to R31). -/

namespace Sys2Proof.Machine

/-- The sequencer's phase: IDLE = 0, SAMPLING = 1, DECODE = 2; the value 3 is never written (R21). -/
inductive Phase where
  | idle
  | sampling
  | decode
  deriving DecidableEq, Repr

/-- op_r, the operation in progress: READ = 0b00, READ_ANGLE = 0b01, SAMPLE = 0b10, LOOKUP = 0b11 (R21). -/
inductive Op where
  | read
  | readAngle
  | sample
  | lookup
  deriving DecidableEq, Repr

/-- PinResult = Ok(Bool) | Err(PinErr) (00_scope.md R10). -/
inductive PinResult where
  | ok (level : Bool)
  | err (e : PinErr)
  deriving DecidableEq, Repr

/-- A Response (30_encoding.md R77). -/
inductive Response where
  | posSome (p : Pos)
  | posNone
  | code (c : Code)
  | angle (a : Angle)
  | pinFail (e : PinErr)
  deriving DecidableEq, Repr

/-- An entry of the event history (20_memory.md R60), with the number of the instance it belongs to.
ROM and angle reads are recorded too (log entry 14). -/
inductive Event where
  /-- PinRead(k) was issued; `line` is the physical input handle k is bound to. -/
  | pinRead (inst : Nat) (k : Pin) (line : Nat)
  /-- PIN_A[k] delivered the answer of the outstanding read. -/
  | pinAnswer (inst : Nat) (k : Pin) (r : PinResult)
  /-- RomRead(POS_ROM, c). -/
  | romRead (inst : Nat) (c : Code)
  /-- The angle unit was asked for AngleOf(p). -/
  | angleRead (inst : Nat) (p : Pos)
  deriving DecidableEq, Repr

/-- What the environment does next (70_reset_and_hazards.md R239); log entry 2. -/
inductive Input where
  /-- The requester offers a request word to the instance whose turn it is. -/
  | offer (w : ReqWord)
  /-- Pin collaborator k answers the instance's outstanding read of pin k. -/
  | answer (k : Pin) (r : PinResult)
  /-- Pin collaborator k answers a read that a reset has abandoned (R231; log entry 11). -/
  | late (k : Pin) (r : PinResult)
  /-- Reset of the instance whose turn it is (R230, R231). -/
  | reset
  /-- Teardown of the instance whose turn it is (R233). -/
  | teardown
  /-- Nothing happens outside while the instance takes one micro-step, or waits for its answer. -/
  | tick
  /-- The next instance has its turn. -/
  | rotate
  deriving DecidableEq, Repr

/-- One decoder instance: its handles, its registers (R21) and its channels (R29). -/
structure Decoder where
  /-- The instance's number, as the event history needs it (R60); no instance can see it (R215). -/
  id : Nat
  /-- Its eight pin handles: the physical input that handle 0, 1, ..., 7 is bound to (R20, R232). Constant: the
  binding is fixed for the instance's lifetime (R233). -/
  pins : Vector Nat 8
  /-- Was the instance torn down, and so its pins released (R233)? -/
  torn : Bool
  phase : Phase
  /-- 1 while a PinRead(k) is outstanding. -/
  wait : Bool
  opR : Op
  /-- Index of the next pin to read, 0..8. -/
  k : BitVec 4
  /-- The packing accumulator. -/
  acc : Code
  /-- The code the ROM is indexed with. -/
  codeR : Code
  /-- REQ channel: the words offered and not accepted yet, oldest first (R76). -/
  req : List ReqWord
  /-- RESP channel: the responses delivered, oldest first; the requester takes each at once (R30). -/
  resp : List Response
  /-- Pins with a read that was issued before a reset and is not answered yet (R231). -/
  stale : List Pin
  deriving DecidableEq, Repr

/-- The physical inputs an instance owns (R6, R215): those its handles are bound to, until teardown releases
them (R233). -/
def Decoder.owned (d : Decoder) : List Nat := if d.torn then [] else d.pins.toList

/-- The physical input that handle k reads (R52). -/
def Decoder.line (d : Decoder) (k : Pin) : Nat := d.pins[k]

/-- The machine: the constants of the build, the instances, and what goes on outside. -/
structure State where
  /-- The configuration (R24). Constant. DESIGN CHOICE (log entry 25): one for all instances. -/
  build : Build
  /-- POS_ROM, shared by all instances (R25, R215). Constant. -/
  posRom : Memory
  /-- The instance whose turn it is. -/
  cur : Decoder
  /-- The other instances, the next to have its turn first. -/
  others : List Decoder
  /-- The event history, oldest first (R60). -/
  hist : List Event
  /-- What the environment does next, first move first (log entry 2). -/
  inputs : List Input
  deriving DecidableEq, Repr

/-- Why a step stops the machine. The block itself has no fault (60_exceptions.md R203): PinReadFailure is
a response. -/
inductive Fault where
  /-- The sampler's index is above 8. R22 says that it "never exceeds 8", so no rule gives a micro-step.
  Raised by READ, READ_ANGLE and SAMPLE while sampling; no state that meets `State.Inv` raises it. Safe:
  the model stops (log entry 16). -/
  | samplerIndex
  deriving DecidableEq, Repr

/-- Why a step has no meaning. -/
inductive Refusal where
  /-- The instruction has no meaning yet; raised by `exec`'s arms only. Safe. -/
  | notModelled (mnemonic : String)
  /-- The environment's next move is an answer to a read that is not outstanding: "such an answer has no
  step in the model" (R239). Raised by `step`, never by an instruction. Safe (log entry 12). -/
  | unaskedAnswer
  deriving DecidableEq, Repr

/-- Instance n right after reset (R31, R230), not torn down. The values of opR, k, acc and codeR are the model's:
the spec leaves them unspecified. DESIGN CHOICE (log entry 9). -/
def Decoder.fresh (n : Nat) (pins : Vector Nat 8) : Decoder where
  id := n
  pins := pins
  torn := false
  phase := .idle
  wait := false
  opR := .read
  k := 0#4
  acc := 0#8
  codeR := 0#8
  req := []
  resp := []
  stale := []

/-- The handles of instance n, bound as PIN_BINDING says (R232). -/
def boundPins (n : Nat) : Vector Nat 8 := Vector.ofFn (Config.pinBinding.line n)

/-- The machine right after reset (R31, R230): POS_ROM holds TABLE, every instance is in IDLE, nothing is
offered, answered or outstanding, and nothing has happened. -/
def State.reset : State where
  build := Config.build
  posRom := romImage Config.table.entry
  cur := Decoder.fresh 0 (boundPins 0)
  others := (List.range Config.moreInstances).map fun n =>
    Decoder.fresh (n + 1) (boundPins (n + 1))
  hist := []
  inputs := []

end Sys2Proof.Machine
end

