-- ==== Sys2Proof/Machine/Flags.lean ====
section
/-! DEFINITION. Outcome tags. The block has no status flags and no condition codes (10_state.md R23); what
another machine's flags would say, the tag of the response says (30_encoding.md R77). -/

namespace Sys2Proof.Machine

/-- The answer of LOOKUP and READ for a table entry: the Some/None tag is the valid/invalid distinction
(R23, R106, R140). -/
def positionResponse : Option Pos → Response
  | some p => .posSome p
  | none => .posNone

/-- resp_status: 0b00 OK_POS, 0b01 OK_NONE, 0b10 PIN_FAIL, 0b11 OK_VALUE (R30, R77). -/
def Response.status : Response → BitVec 2
  | .posSome _ => 0b00#2
  | .posNone => 0b01#2
  | .pinFail _ => 0b10#2
  | .code _ => 0b11#2
  | .angle _ => 0b11#2

/-- May the operation answer so? The "produced by" column of R77. -/
def Response.answers (o : Op) : Response → Bool
  | .posSome _ => o = .lookup || o = .read
  | .posNone => o = .lookup || o = .read
  | .pinFail _ => o = .read || o = .readAngle || o = .sample
  | .code _ => o = .sample
  | .angle _ => o = .readAngle

end Sys2Proof.Machine
end

