-- ==== Sys2Proof/Machine/Operands.lean ====
section
/-! DEFINITION. Where an operation's code operand comes from (30_encoding.md R72): LOOKUP's from the
request word (Decode.lean), the others' from the pins, by pack (41_sample_pack.md R124). -/

namespace Sys2Proof.Machine

/-- One step of pack's fold: `((acc << 1) | zext_8(b2i(level)))[7:0]` (R121, R124). -/
def packStep (acc : Code) (level : Bool) : Code :=
  (acc <<< 1) ||| (BitVec.ofBool level).setWidth 8

/-- pack, the fold from the first level, which is the most-significant bit, to the last (R57, R124). -/
def pack (levels : List Bool) : Code := levels.foldl packStep 0#8

/-- The op field's value of an operation (R21, R71). -/
def Op.bits : Op → BitVec 2
  | .read => 0b00#2
  | .readAngle => 0b01#2
  | .sample => 0b10#2
  | .lookup => 0b11#2

/-- The operation of an instruction, what acceptance writes into op_r (R75). -/
def opOf : Instr → Op
  | .read => .read
  | .readAngle => .readAngle
  | .sample => .sample
  | .lookup _ => .lookup

/-- The phase register's value (R21). -/
def Phase.bits : Phase → BitVec 2
  | .idle => 0#2
  | .sampling => 1#2
  | .decode => 2#2

/-- The pin the sampler's 8-to-1 selection gives for the instance's index (R120). -/
def Decoder.pin (d : Decoder) : Pin := Fin.ofNat 8 d.k.toNat

/-- Is a pin read outstanding (R54)? -/
def Decoder.outstanding (d : Decoder) : Bool :=
  decide (d.phase = .sampling) && d.wait && decide (d.k.toNat < 8)

/-- The instruction in progress in an instance that is not in IDLE (R21 op_r and code_r). -/
def Decoder.inProgress (d : Decoder) : Instr :=
  match d.opR with
  | .read => .read
  | .readAngle => .readAngle
  | .sample => .sample
  | .lookup => .lookup d.codeR

end Sys2Proof.Machine
end

