-- ==== Sys2Proof/Machine/Ops.lean ====
section
/-! DEFINITION. The operations the instructions share: the micro-steps of 10_state.md R27, the one exception
(60_exceptions.md R200, R206), reset (70_reset_and_hazards.md R230, R231) and the environment's moves (R239).
All of them act on the instance whose turn it is. -/

namespace Sys2Proof.Machine

/-- Add an event to the history (20_memory.md R60). -/
def State.log (s : State) (e : Event) : State := { s with hist := s.hist ++ [e] }

/-- respond(R): deliver the response and return to IDLE (00_scope.md R11). -/
def respond (r : Response) (s : State) : State :=
  { s with cur := { s.cur with phase := .idle, resp := s.cur.resp ++ [r] } }

/-- Taking the exception: `respond(PinFail(e)); phase <- IDLE`. There is no vector, no saved state and no
mode change (R200, R201, R206), and no return operation beside it (R207). -/
def raisePinReadFailure (e : PinErr) (s : State) : State := respond (.pinFail e) s

/-- Acceptance of READ, READ_ANGLE or SAMPLE (R27, R75). A torn-down instance accepts no request (R233). -/
def acceptSampling (o : Op) (s : State) : State :=
  if s.cur.torn then s
  else { s with cur := { s.cur with opR := o, acc := 0#8, k := 0#4, wait := false, phase := .sampling } }

/-- Acceptance of LOOKUP c (R27, R75, R106): acc, k and wait are not written. -/
def acceptLookup (c : Code) (s : State) : State :=
  if s.cur.torn then s
  else { s with cur := { s.cur with opR := .lookup, codeR := c, phase := .decode } }

/-- The issue step (R121): wait <- 1, and PinRead(k) is issued and recorded. -/
def issueRead (s : State) : State :=
  { s with cur := { s.cur with wait := true } }.log
    (.pinRead s.cur.id s.cur.pin (s.cur.line s.cur.pin))

/-- The answer step for a level (R121): the packer takes it and the index advances by 1. -/
def takeLevel (level : Bool) (s : State) : State :=
  { s with cur := { s.cur with acc := packStep s.cur.acc level, k := s.cur.k + 1#4 } }

/-- The answer step (R121): wait <- 0, the answer is recorded, and a failure ends the operation (R122). -/
def deliverAnswer (r : PinResult) (s : State) : State :=
  let t := { s with cur := { s.cur with wait := false } }.log (.pinAnswer s.cur.id s.cur.pin r)
  match r with
  | .ok level => takeLevel level t
  | .err e => raisePinReadFailure e t

/-- While a read is outstanding: take the answer of the selected pin if the environment gives it now, and
wait otherwise (R54, R56, R121: only the answer on PIN_A[k], for the current k, is taken). -/
def awaitAnswer (s : State) : State :=
  match s.inputs with
  | .answer p r :: rest => if p = s.cur.pin then deliverAnswer r { s with inputs := rest } else s
  | _ => s

/-- One micro-step in SAMPLING (R27, R121, R123): issue, answer, or the end of sampling at k = 8, which is
what `atEnd` does for the operation. -/
def samplingStep (atEnd : State → State) (s : State) : Host.Outcome State Fault Refusal :=
  if s.cur.k.toNat < 8 then
    if s.cur.wait then .next (awaitAnswer s) else .next (issueRead s)
  else if s.cur.k.toNat = 8 then .next (atEnd s)
  else .fault .samplerIndex

/-- End of sampling for READ and READ_ANGLE: code_r <- acc; phase <- DECODE (R123). -/
def endToDecode (s : State) : State :=
  { s with cur := { s.cur with codeR := s.cur.acc, phase := .decode } }

/-- End of sampling for SAMPLE: respond(Code(acc)) (R123, R125). -/
def endToCode (s : State) : State := respond (.code s.cur.acc) s

/-- DECODE for LOOKUP and READ: one RomRead at code_r, and its entry is the response (R106, R140). -/
def decodePosition (s : State) : State :=
  respond (positionResponse (romRead s.posRom s.cur.codeR)) (s.log (.romRead s.cur.id s.cur.codeR))

/-- The accesses of READ_ANGLE's DECODE step: one RomRead, and one angle read for a valid code (R165, R237). -/
def angleAccesses (n : Nat) (c : Code) : Option Pos → List Event
  | some p => [.romRead n c, .angleRead n p]
  | none => [.romRead n c]

/-- DECODE for READ_ANGLE: AngleOf of the entry, or the fallback angle (R165). -/
def decodeAngle (s : State) : State :=
  respond (.angle (angleFor s.build (romRead s.posRom s.cur.codeR)))
    { s with hist := s.hist ++ angleAccesses s.cur.id s.cur.codeR (romRead s.posRom s.cur.codeR) }

/-- The operation in progress is abandoned with no response, and a read that is outstanding becomes one whose
late answer will be discarded (R231). The responses already delivered, the requests that wait, the handles and
their release stay (log entries 10 and 13). -/
def Decoder.abandon (d : Decoder) : Decoder :=
  { Decoder.fresh d.id d.pins with
    torn := d.torn
    req := d.req
    resp := d.resp
    stale := if d.outstanding then d.stale ++ [d.pin] else d.stale }

/-- Reset of the instance (R230, R231). Reads already issued stay in the history. -/
def resetInstance (s : State) : State := { s with cur := s.cur.abandon }

/-- The requester offers a word: it waits, untouched, behind those offered before (R76). -/
def offerRequest (w : ReqWord) (s : State) : State :=
  { s with cur := { s.cur with req := s.cur.req ++ [w] } }

/-- A late answer to a read that a reset abandoned is discarded and has no effect (R231), other than that it
will not come again (R239: each read is answered once). -/
def discardLate (p : Pin) (s : State) : State :=
  { s with cur := { s.cur with stale := s.cur.stale.erase p } }

/-- Teardown (R233), in any phase: the instance releases its pins, and accepts no request from now on. An
operation in progress goes on, since "only reset abandons it" (30_encoding.md R76) and no transition of R27 ends
it here. That its remaining reads go to the inputs its handles are bound to is a DESIGN CHOICE (log entry 13). -/
def tearDown (s : State) : State := { s with cur := { s.cur with torn := true } }

/-- The turn passes to the next instance (R215; log entry 8). -/
def passTurn (s : State) : State :=
  match s.others with
  | [] => s
  | d :: ds => { s with cur := d, others := ds ++ [s.cur] }

end Sys2Proof.Machine
end

