-- ==== Sys2Proof/Machine/Lookup.lean ====
section
/-! DEFINITION. LOOKUP (40_table_lookup.md R106). -/

namespace Sys2Proof.Machine

/-- One micro-step of LOOKUP c (R106): acceptance in IDLE, the answer in DECODE. While another operation
is in progress the request waits, untouched (30_encoding.md R76; log entry 17). -/
def execLookup (c : Code) (s : State) : Host.Outcome State Fault Refusal :=
  match s.cur.phase with
  | .idle => .next (acceptLookup c s)
  | .sampling => .next s
  | .decode => if s.cur.opR = .lookup ∧ s.cur.codeR = c then .next (decodePosition s) else .next s

end Sys2Proof.Machine
end

