-- ==== Sys2Proof/Machine/Read.lean ====
section
/-! DEFINITION. READ (42_read.md R140). -/

namespace Sys2Proof.Machine

/-- One micro-step of READ (R140): acceptance in IDLE, then the sampler, then the table lookup in DECODE.
While another operation is in progress the request waits (30_encoding.md R76; log entry 17). -/
def execRead (s : State) : Host.Outcome State Fault Refusal :=
  match s.cur.phase with
  | .idle => .next (acceptSampling .read s)
  | .sampling => if s.cur.opR = .read then samplingStep endToDecode s else .next s
  | .decode => if s.cur.opR = .read then .next (decodePosition s) else .next s

end Sys2Proof.Machine
end

