-- ==== Sys2Proof/Machine/ReadAngle.lean ====
section
/-! DEFINITION. READ_ANGLE (43_read_angle.md R165). -/

namespace Sys2Proof.Machine

/-- One micro-step of READ_ANGLE (R165): as READ, with the angle unit in DECODE. While another operation
is in progress the request waits (30_encoding.md R76; log entry 17). -/
def execReadAngle (s : State) : Host.Outcome State Fault Refusal :=
  match s.cur.phase with
  | .idle => .next (acceptSampling .readAngle s)
  | .sampling => if s.cur.opR = .readAngle then samplingStep endToDecode s else .next s
  | .decode => if s.cur.opR = .readAngle then .next (decodeAngle s) else .next s

end Sys2Proof.Machine
end

