-- ==== Sys2Proof/Machine/Sample.lean ====
section
/-! DEFINITION. SAMPLE (41_sample_pack.md R125). -/

namespace Sys2Proof.Machine

/-- One micro-step of SAMPLE (R125): acceptance in IDLE, then the sampler, whose end responds Code(acc).
While another operation is in progress the request waits (30_encoding.md R76; log entry 17). -/
def execSample (s : State) : Host.Outcome State Fault Refusal :=
  match s.cur.phase with
  | .idle => .next (acceptSampling .sample s)
  | .sampling => if s.cur.opR = .sample then samplingStep endToCode s else .next s
  | .decode => .next s

end Sys2Proof.Machine
end

