-- ==== Sys2Proof/Machine/Dispatch.lean ====
section
/-! DEFINITION. exec: one micro-step of an instruction, one arm per constructor. -/

namespace Sys2Proof.Machine

/-- One micro-step of instruction `i` in the instance whose turn it is. -/
def exec (i : Instr) (s : State) : Host.Outcome State Fault Refusal :=
  match i with
  | .read => Sys2Proof.Machine.execRead s
  | .readAngle => Sys2Proof.Machine.execReadAngle s
  | .sample => Sys2Proof.Machine.execSample s
  | .lookup c => Sys2Proof.Machine.execLookup c s

end Sys2Proof.Machine
end

