-- ==== Sys2Proof/Machine/Schedule.lean ====
section
/-! DEFINITION. What happens next: a move of the environment (70_reset_and_hazards.md R239) or a micro-step
of the instruction that the instance accepts or is in the middle of (10_state.md R27, 30_encoding.md R76). -/

namespace Sys2Proof.Machine

/-- What the next step is. -/
inductive Action where
  /-- No instruction runs: the environment moves, or nothing can. -/
  | settle (o : Host.Outcome State Fault Refusal)
  /-- The instruction takes a micro-step from the state. -/
  | run (i : Instr) (s : State)

/-- The instance's own move: the operation in progress goes on; in IDLE the oldest request that waits is
decoded and accepted (R75, R76); with none, an idle instance does nothing (60_exceptions.md R216). -/
def ownMove (s : State) : Action :=
  match s.cur.phase with
  | .idle =>
    if s.cur.torn then .settle (.next s)
    else
      match s.cur.req with
      | [] => .settle (.next s)
      | w :: rest => .run (decode w) { s with cur := { s.cur with req := rest } }
  | .sampling => .run s.cur.inProgress s
  | .decode => .run s.cur.inProgress s

/-- Can the instance move without an answer? -/
def canMove (d : Decoder) : Bool :=
  if d.phase = .idle then !d.torn && !d.req.isEmpty else true

/-- An answer is the environment's next move. If it answers the outstanding read, the instance takes it. If
no read is outstanding, it cannot come yet, so the instance moves first, if it can. Any other answer has no
step (R54, R239). -/
def answerMove (p : Pin) (s : State) : Action :=
  if s.cur.outstanding then
    if p = s.cur.pin then ownMove s else .settle (.refused .unaskedAnswer)
  else if canMove s.cur then ownMove s
  else .settle (.refused .unaskedAnswer)

/-- Nothing happens outside in this step: no answer comes, so that an instance with a read outstanding waits
(R56), and any other takes its own move (log entry 2). -/
def tickMove (s : State) : Action :=
  if s.cur.outstanding then .settle (.next s) else ownMove s

/-- The next step. Reset comes before anything the instance would do (60_exceptions.md R205). -/
def nextAction (s : State) : Action :=
  match s.inputs with
  | [] => ownMove s
  | .tick :: rest => tickMove { s with inputs := rest }
  | .answer p _ :: _ => answerMove p s
  | .reset :: rest => .settle (.next (resetInstance { s with inputs := rest }))
  | .offer w :: rest => .settle (.next (offerRequest w { s with inputs := rest }))
  | .rotate :: rest => .settle (.next (passTurn { s with inputs := rest }))
  | .teardown :: rest => .settle (.next (tearDown { s with inputs := rest }))
  | .late p _ :: rest =>
    if p ∈ s.cur.stale then .settle (.next (discardLate p { s with inputs := rest }))
    else .settle (.refused .unaskedAnswer)

end Sys2Proof.Machine
end

