-- ==== Sys2Proof/Machine/Step.lean ====
section
/-! DEFINITION. One step of the machine, and the placing of a request word for the next step. -/

namespace Sys2Proof.Machine

/-- One step: one move of the environment, or one micro-step of an instruction (00_scope.md R12). -/
def step (s : State) : Host.Outcome State Fault Refusal :=
  match nextAction s with
  | .settle o => o
  | .run i t => exec i t

/-- `s` with the request word `w` standing at the head of the REQ channel of an instance that is in IDLE and
is not torn down, and with one micro-step of that instance due, so that the next step accepts and runs exactly it
(log entry 18). A number above ten bits is no request word (R70) and places none. -/
def State.withFetchWord (s : State) (_nbits w : Nat) : State :=
  if w < 1024 then
    { s with
      cur := { s.cur with
        torn := false
        phase := .idle
        req := BitVec.ofNat 10 w :: s.cur.req }
      inputs := .tick :: s.inputs }
  else s

end Sys2Proof.Machine
end

