-- ==== Sys2Proof/Machine/Ports.lean ====
section
/-! DEFINITION. The port-level realisation of the channels (10_state.md R30, 30_encoding.md R77). The machine
itself works on channel values (R29); these functions are the other view of the same values. -/

namespace Sys2Proof.Machine

/-- A signal of "the width of PinErr" (R30): it carries a payload, or is driven to 0, which is `none`. PinErr may
be any type (00_scope.md R8), so the payload is carried as it is. DESIGN CHOICE (log entry 24): 0 is kept apart
from every payload. -/
abbrev ErrSignal := Option PinErr

/-! ### RESP -/

/-- The response signals of R30. -/
structure RespPort where
  valid : Bool
  status : BitVec 2
  pos : Pos
  code : Code
  angle : Angle
  err : ErrSignal
  deriving DecidableEq, Repr

/-- The response signals when no response is transferred: resp_valid = 0. DESIGN CHOICE (log entry 24): the
other signals, of which R30 says nothing then, are 0. -/
def respIdle (f : AngleFmt) : RespPort := ⟨false, 0b00#2, 0#7, 0#8, Angle.zero f, none⟩

/-- A response on the signals: resp_valid = 1, and the fields it does not name are driven to 0 (R77). -/
def respPort (f : AngleFmt) (r : Response) : RespPort :=
  match r with
  | .posSome p => ⟨true, r.status, p, 0#8, Angle.zero f, none⟩
  | .posNone => ⟨true, r.status, 0#7, 0#8, Angle.zero f, none⟩
  | .code c => ⟨true, r.status, 0#7, c, Angle.zero f, none⟩
  | .angle a => ⟨true, r.status, 0#7, 0#8, a, none⟩
  | .pinFail e => ⟨true, r.status, 0#7, 0#8, Angle.zero f, some e⟩

/-- The response signals in a step that takes an instance from `d` to `d'`: resp_valid = 1 exactly in the step
that delivers a response (R30). -/
def respSignals (f : AngleFmt) (d d' : Decoder) : RespPort :=
  match d'.resp.drop d.resp.length with
  | r :: _ => respPort f r
  | [] => respIdle f

/-- The response on the signals, if there is one; OK_VALUE is read as Code or Angle by the op of the request it
answers (R77). -/
def respOfPort (o : Op) (s : RespPort) : Option Response :=
  if !s.valid then none
  else if s.status = 0b00#2 then some (.posSome s.pos)
  else if s.status = 0b01#2 then some .posNone
  else if s.status = 0b10#2 then s.err.map .pinFail
  else if o = .sample then some (.code s.code)
  else some (.angle s.angle)

/-! ### REQ -/

/-- req_ready = 1 exactly when phase = IDLE (R30). -/
def reqReady (d : Decoder) : Bool := decide (d.phase = .idle)

/-- req_valid: a request word is offered (R30). DESIGN CHOICE (log entry 24): it is 0 at an instance that is
torn down, so that none is transferred there (R233). -/
def reqValid (d : Decoder) : Bool := !d.req.isEmpty && !d.torn

/-- req_word: the request word offered, the oldest that waits (R30). DESIGN CHOICE (log entry 24): when req_valid
is 0, at a torn-down instance with words waiting too, it is 0; R30 says nothing of that. -/
def reqWord (d : Decoder) : ReqWord := if reqValid d then d.req.headD 0#10 else 0#10

/-! ### PIN_Q and PIN_A -/

/-- pin_q[k]: a read of pin k is requested (R30, R54). DESIGN CHOICE (log entry 24): it stays 1 from the issue step
until the answer is taken or a reset abandons the read; R30 does not say how long. -/
def pinQ (d : Decoder) (k : Pin) : Bool := d.outstanding && decide (k = d.pin)

/-- pin_a_valid[k], pin_a_err[k], pin_a_level[k] and pin_a_payload[k] (R30). -/
structure PinPort where
  valid : Bool
  err : Bool
  level : Bool
  payload : ErrSignal
  deriving DecidableEq, Repr

/-- The signals when no answer is given: pin_a_valid[k] = 0. DESIGN CHOICE (log entry 24): the others are 0. -/
def pinIdle : PinPort := ⟨false, false, false, none⟩

/-- A pin answer on the signals. DESIGN CHOICE (log entry 24): the field it does not use is 0. -/
def pinPort : PinResult → PinPort
  | .ok level => ⟨true, false, level, none⟩
  | .err e => ⟨true, true, false, some e⟩

/-- The answer on the signals, if there is one: Err(payload) if pin_a_err = 1, else Ok(level) (R30). -/
def pinOfPort (s : PinPort) : Option PinResult :=
  if !s.valid then none
  else if s.err then s.payload.map .err
  else some (.ok s.level)

/-- The signals on PIN_A[k]: valid when pin k's answer to the outstanding read, or to an abandoned read (R231),
is what happens next (log entry 24). -/
def pinA (s : State) (k : Pin) : PinPort :=
  match s.inputs with
  | .answer p r :: _ => if pinQ s.cur k && decide (p = k) then pinPort r else pinIdle
  | .late p r :: _ => if p = k ∧ k ∈ s.cur.stale then pinPort r else pinIdle
  | _ => pinIdle

end Sys2Proof.Machine
end

