-- ==== Sys2Proof/Machine/Asm.lean ====
section
/-! DEFINITION. The assembler syntax of requests (30_encoding.md R78): one request a line, with the pin
answers drawn during it written behind `pins:`. -/

namespace Sys2Proof.Machine

/-- One line of a test program: the request and the answers its pin reads draw, in handle order. -/
structure AsmLine where
  instr : Instr
  pins : List PinResult
  deriving DecidableEq, Repr

/-- Are these exactly the answers of an operation with `n` reads still to make? Every read has one, and after
an Err none is listed, "because no further reads happen" (R54, R78, R122). -/
def pinsComplete : Nat → List PinResult → Bool
  | 0, l => l.isEmpty
  | _ + 1, [] => false
  | n + 1, .ok _ :: l => pinsComplete n l
  | _ + 1, .err _ :: l => l.isEmpty

/-- Does the line list exactly the answers its request draws? LOOKUP draws none (R106). -/
def AsmLine.wellFormed (l : AsmLine) : Bool :=
  match l.instr with
  | .lookup _ => l.pins.isEmpty
  | .read => pinsComplete 8 l.pins
  | .readAngle => pinsComplete 8 l.pins
  | .sample => pinsComplete 8 l.pins

/-- The pin answers r0, r1, ... as the environment's next moves, each answering its own read. -/
def answerInputs (k : Nat) : List PinResult → List Input
  | [] => []
  | r :: rs => .answer (Fin.ofNat 8 k) r :: answerInputs (k + 1) rs

/-- What the environment does for a line: the requester offers the word, the pins answer. -/
def AsmLine.inputs (l : AsmLine) : List Input := .offer (encode l.instr) :: answerInputs 0 l.pins

/-- The words of a text, between blanks. -/
def textWords (t : List Char) : List (List Char) :=
  ((t.map fun c => if c = '\t' then ' ' else c).splitOn ' ').filter fun w => !w.isEmpty

/-- The value of a decimal digit. -/
def decDigit (c : Char) : Option Nat :=
  if '0'.toNat ≤ c.toNat ∧ c.toNat ≤ '9'.toNat then some (c.toNat - '0'.toNat) else none

/-- The value of a hexadecimal digit. -/
def hexDigit (c : Char) : Option Nat :=
  if 'a'.toNat ≤ c.toNat ∧ c.toNat ≤ 'f'.toNat then some (c.toNat - 'a'.toNat + 10)
  else if 'A'.toNat ≤ c.toNat ∧ c.toNat ≤ 'F'.toNat then some (c.toNat - 'A'.toNat + 10)
  else decDigit c

/-- A number in digits of a base, most-significant digit first. -/
def digitsValue (base : Nat) (digit : Char → Option Nat) (acc : Nat) : List Char → Option Nat
  | [] => some acc
  | c :: cs =>
    match digit c with
    | some d => digitsValue base digit (acc * base + d) cs
    | none => none

/-- `<code>`: 0 to 255, decimal or 0x-prefixed hexadecimal (R78). -/
def parseCode (t : List Char) : Option Code :=
  let n := match t with
    | [] => none
    | ['0', 'x'] => none
    | '0' :: 'x' :: ds => digitsValue 16 hexDigit 0 ds
    | ds => digitsValue 10 decDigit 0 ds
  match n with
  | some v => if v < 256 then some (BitVec.ofNat 8 v) else none
  | none => none

/-- A request in words: an upper-case mnemonic, and LOOKUP's code (R78). -/
def parseRequest (ws : List (List Char)) : Option Instr :=
  match ws with
  | [['R', 'E', 'A', 'D']] => some .read
  | [['R', 'E', 'A', 'D', '_', 'A', 'N', 'G', 'L', 'E']] => some .readAngle
  | [['S', 'A', 'M', 'P', 'L', 'E']] => some .sample
  | [['L', 'O', 'O', 'K', 'U', 'P'], c] =>
    match parseCode c with
    | some v => some (.lookup v)
    | none => none
  | _ => none

/-- One pin answer: `0`, `1` or `E(name)` (R78). Which payload a name stands for, if it
stands for one, is an argument. DESIGN CHOICE (log entry 21): a name is any text without blanks between `E(` and
the `)` that ends the word, the empty text and texts with parentheses included; R78 gives names no grammar. -/
def parsePin (named : List Char → Option PinErr) (t : List Char) : Option PinResult :=
  match t with
  | ['0'] => some (.ok false)
  | ['1'] => some (.ok true)
  | 'E' :: '(' :: cs => if cs.getLast? = some ')' then (named cs.dropLast).map .err else none
  | _ => none

/-- Up to `n` pin answers at the head of a list of words, none behind an `E(...)`, and the words behind them. -/
def parsePins (named : List Char → Option PinErr) : Nat → List (List Char) → List PinResult × List (List Char)
  | 0, ws => ([], ws)
  | _ + 1, [] => ([], [])
  | n + 1, w :: ws =>
    match parsePin named w with
    | none => ([], w :: ws)
    | some (.err e) => ([.err e], ws)
    | some (.ok l) => (.ok l :: (parsePins named n ws).1, (parsePins named n ws).2)

/-- The word that opens the pin answers (R78). -/
def pinsMark : List Char := ['p', 'i', 'n', 's', ':']

/-- The pin answers a comment opens with, where R78's own programs write them (95_test_vectors.md §3): the
rest of the comment is not read (log entry 21). -/
def parseComment (named : List Char → Option PinErr) (ws : List (List Char)) : List PinResult :=
  match ws with
  | w :: rest => if w = pinsMark then (parsePins named 8 rest).1 else []
  | [] => []

/-- One line (R78): a request, and the pin answers drawn during it, before the `;` that starts the comment or at
the head of the comment. Before the `;` every word must be read. -/
def parseLine (named : List Char → Option PinErr) (t : List Char) : Option AsmLine :=
  let code := textWords (t.takeWhile (· != ';'))
  let comment := textWords (t.dropWhile (· != ';')).tail
  match parseRequest (code.takeWhile (· != pinsMark)) with
  | none => none
  | some i =>
    match code.dropWhile (· != pinsMark) with
    | [] => some ⟨i, parseComment named comment⟩
    | _ :: ws =>
      match parsePins named 8 ws with
      | (rs, []) => some ⟨i, rs⟩
      | (_, _ :: _) => none

end Sys2Proof.Machine
end

