-- ==== Sys2Proof/Safety.lean ====
section
/-! DEFINITION. The terms claims are stated in: runs of many steps, the invariant of the machine, the end of a
run (70_reset_and_hazards.md R238), and the clear, whole-operation reading of the four requests that the
micro-steps refine. -/

namespace Sys2Proof.Machine

/-- `n` steps, stopping at the first fault or refusal. -/
def run : Nat → State → Host.Outcome State Fault Refusal
  | 0, s => .next s
  | n + 1, s =>
    match step s with
    | .next t => run n t
    | .fault f => .fault f
    | .refused r => .refused r

/-- The outcome is no fault. -/
def NoFault : Host.Outcome State Fault Refusal → Prop
  | .fault _ => False
  | .next _ => True
  | .refused _ => True

/-- The sequencer's invariant: the index never exceeds 8 (R22); a read is outstanding only while
sampling, with a pin left to read (R54); in SAMPLING the operation is one that samples and acc is below
2^k (R27, R124); in DECODE it is one that looks up (R27). -/
structure Decoder.Inv (d : Decoder) : Prop where
  index : d.k.toNat ≤ 8
  waiting : d.wait = true → d.phase = .sampling ∧ d.k.toNat < 8
  sampling : d.phase = .sampling → d.opR ≠ .lookup ∧ d.acc.toNat < 2 ^ d.k.toNat
  decoding : d.phase = .decode → d.opR ≠ .sample

/-- All instances, the one whose turn it is first. -/
def State.instances (s : State) : List Decoder := s.cur :: s.others

/-- The machine's invariant: the ROM is in canonical form and holds a table that meets R101 to R104; every
instance meets its own invariant; instance numbers, which are the model's (log entry 8), differ; and no physical
input is bound to two handles, so that none is owned twice (R6, R215, R232). -/
structure State.Inv (s : State) : Prop where
  rom : s.posRom.wf = true
  table : Config.TableOk (romRead s.posRom)
  each : ∀ d ∈ s.instances, d.Inv
  numbers : (s.instances.map (·.id)).Nodup
  exclusive : (s.instances.flatMap (·.pins.toList)).Nodup

/-- An instance is done (R238): every request it was offered is accepted, every response delivered, and it is in
IDLE with no read outstanding. (A response is delivered in the step that produces it, so none is due in IDLE.) -/
def Decoder.ended (d : Decoder) : Prop := d.req = [] ∧ d.phase = .idle ∧ d.outstanding = false

/-- The run of a request sequence has ended (R238). The sequence is what waits in the REQ channels and what the
requester has still to offer, so that no offer may be due (log entry 2). -/
def State.ended (s : State) : Prop := (∀ w, Input.offer w ∉ s.inputs) ∧ ∀ d ∈ s.instances, d.ended

/-- What sampling comes to, read as one piece: the code the levels pack to, or the first failure; none when
an answer is missing. -/
def sampleAll (acc : Code) : Nat → List PinResult → Option (Except PinErr Code)
  | 0, _ => some (.ok acc)
  | _ + 1, [] => none
  | n + 1, .ok l :: rs => sampleAll (packStep acc l) n rs
  | _ + 1, .err e :: _ => some (.error e)

/-- The response of a whole operation on the pin answers it draws (R106, R125, R140, R165): none when an
answer is missing, for then the operation does not end (R56). -/
def responseOf (b : Build) (rom : Memory) (i : Instr) (rs : List PinResult) : Option Response :=
  match i with
  | .lookup c => some (positionResponse (romRead rom c))
  | .sample =>
    match sampleAll 0#8 8 rs with
    | some (.ok c) => some (.code c)
    | some (.error e) => some (.pinFail e)
    | none => none
  | .read =>
    match sampleAll 0#8 8 rs with
    | some (.ok c) => some (positionResponse (romRead rom c))
    | some (.error e) => some (.pinFail e)
    | none => none
  | .readAngle =>
    match sampleAll 0#8 8 rs with
    | some (.ok c) => some (.angle (angleFor b (romRead rom c)))
    | some (.error e) => some (.pinFail e)
    | none => none

/-- The events of reads k, k+1, ... of an instance and their answers, in order (R54, R60). -/
def readEvents (d : Decoder) (k : Nat) : List PinResult → List Event
  | [] => []
  | r :: rs =>
    .pinRead d.id (Fin.ofNat 8 k) (d.line (Fin.ofNat 8 k)) ::
      .pinAnswer d.id (Fin.ofNat 8 k) r :: readEvents d (k + 1) rs

/-- The pin reads in a history, with their instances, in the order of issue (R60). -/
def pinReads (h : List Event) : List (Nat × Pin) :=
  h.filterMap fun e =>
    match e with
    | .pinRead n k _ => some (n, k)
    | .pinAnswer _ _ _ => none
    | .romRead _ _ => none
    | .angleRead _ _ => none

/-- The pin reads an operation makes when none fails (R106, R125, R140, R165). -/
def readsDue : Instr → Nat
  | .lookup _ => 0
  | .read => 8
  | .readAngle => 8
  | .sample => 8

/-- The ROM and angle accesses of a whole operation on the answers it draws (R106, R122, R165, R237): none
after a failure. -/
def accessesOf (s : State) (i : Instr) (rs : List PinResult) : List Event :=
  match i with
  | .lookup c => [.romRead s.cur.id c]
  | .sample => []
  | .read =>
    match sampleAll 0#8 8 rs with
    | some (.ok c) => [.romRead s.cur.id c]
    | some (.error _) => []
    | none => []
  | .readAngle =>
    match sampleAll 0#8 8 rs with
    | some (.ok c) => angleAccesses s.cur.id c (romRead s.posRom c)
    | some (.error _) => []
    | none => []

/-- The instance is in IDLE, its oldest waiting request is the instruction `i` (in any spelling of its
ignored bits), and the pins will answer `rs` to the reads it makes, and nothing else happens outside. -/
structure Ready (s : State) (i : Instr) (rest : List ReqWord) (rs : List PinResult) : Prop where
  idle : s.cur.phase = .idle
  alive : s.cur.torn = false
  request : ∃ w, s.cur.req = w :: rest ∧ decode w = i
  answers : s.inputs = answerInputs 0 rs

/-- The micro-steps of a whole operation on the answers it draws: acceptance, two for each read, and what
remains after the eighth level, if no read fails (R27). -/
def stepsOf (i : Instr) (rs : List PinResult) : Nat :=
  match i, sampleAll 0#8 8 rs with
  | .lookup _, _ => 2
  | .sample, some (.ok _) => 18
  | .read, some (.ok _) => 19
  | .readAngle, some (.ok _) => 19
  | _, _ => 1 + 2 * rs.length

/-- From `s` the oldest request, the instruction `i`, runs to its end (R238) in exactly the steps the operation
has: it responds `r`, it has issued one read for each answer in `rs`, in handle order, and then made the
accesses `acc`, every answer is used up, and the instance is in IDLE again with the later requests still
waiting. -/
def Completes (s : State) (i : Instr) (rest : List ReqWord) (rs : List PinResult) (r : Response)
    (acc : List Event) : Prop :=
  ∃ t, run (stepsOf i rs) s = .next t ∧ t.cur.phase = .idle ∧ t.cur.resp = s.cur.resp ++ [r] ∧
    t.cur.req = rest ∧ t.inputs = [] ∧ t.hist = s.hist ++ (readEvents s.cur 0 rs ++ acc) ∧
    t.build = s.build ∧ t.posRom = s.posRom ∧ t.others = s.others

/-- A renaming of the payloads in an answer. -/
def PinResult.rename (f : PinErr → PinErr) : PinResult → PinResult
  | .ok l => .ok l
  | .err e => .err (f e)

/-- A renaming of the payloads in a response. -/
def Response.rename (f : PinErr → PinErr) : Response → Response
  | .pinFail e => .pinFail (f e)
  | .posSome p => .posSome p
  | .posNone => .posNone
  | .code c => .code c
  | .angle a => .angle a

/-- A renaming of the payloads in an event. -/
def Event.rename (f : PinErr → PinErr) : Event → Event
  | .pinAnswer n k r => .pinAnswer n k (r.rename f)
  | .pinRead n k l => .pinRead n k l
  | .romRead n c => .romRead n c
  | .angleRead n p => .angleRead n p

/-- A renaming of the payloads in a move of the environment. -/
def Input.rename (f : PinErr → PinErr) : Input → Input
  | .answer k r => .answer k (r.rename f)
  | .late k r => .late k (r.rename f)
  | .offer w => .offer w
  | .reset => .reset
  | .teardown => .teardown
  | .tick => .tick
  | .rotate => .rotate

/-- A renaming of the payloads in an instance. -/
def Decoder.rename (f : PinErr → PinErr) (d : Decoder) : Decoder :=
  { d with resp := d.resp.map (·.rename f) }

/-- A renaming of the payloads in the whole machine: PinErr is opaque (R8, R10), so nothing but the payloads
themselves may change under it. -/
def State.rename (f : PinErr → PinErr) (s : State) : State :=
  { s with
    cur := s.cur.rename f
    others := s.others.map (·.rename f)
    hist := s.hist.map (·.rename f)
    inputs := s.inputs.map (·.rename f) }

/-- A renaming of the payloads in an outcome. -/
def renameOutcome (f : PinErr → PinErr) :
    Host.Outcome State Fault Refusal → Host.Outcome State Fault Refusal
  | .next s => .next (s.rename f)
  | .fault x => .fault x
  | .refused x => .refused x

end Sys2Proof.Machine
end

