-- ==== Sys2Proof/Certificates/Slice0/Obligations.lean ====
section
/-! DEFINITION. What is claimed of the machine, for the provers. Each statement's docstring names the rules of
spec/ it formalises. -/

open Sys2Proof Sys2Proof.Machine

/-! ### Encoding -/

/-- R70 to R75: decoding the word of an instruction gives the instruction, and the word of what is decoded
from `w` is `w` for LOOKUP, and `w` with its ignored bits 7:0 cleared for the others. -/
def Obligations.DecodeEncodeAgree : Prop :=
  (∀ i : Instr, i.wellFormed = true → decode (encode i) = i) ∧
  (∀ w : ReqWord, encode (decode w) = if reqOp w = 0b11#2 then w else w &&& 0x300#10) ∧
  (∀ (n : Nat) (i : Instr), decodeTableWord n (encode i).toNat = some i)

/-- R73: the opcode map, whose four rows partition the words; each word decodes to the operation of its row. -/
def Obligations.RowsPartitionTheWords : Prop :=
  opcodeMap.map (fun r => (r.mnemonic, r.pattern, r.mask)) =
    [("READ", 0x000#10, 0x300#10), ("READ_ANGLE", 0x100#10, 0x300#10),
     ("SAMPLE", 0x200#10, 0x300#10), ("LOOKUP", 0x300#10, 0x300#10)] ∧
  (∀ w : ReqWord, (opcodeMap.filter fun r => w &&& r.mask == r.pattern).map (·.mnemonic)
    = [(decode w).mnemonic]) ∧
  (∀ c : Code, decode (0b11#2 ++ c) = .lookup c)

/-- R72: for READ, READ_ANGLE and SAMPLE the code field is ignored; for LOOKUP it is the operand. -/
def Obligations.IgnoredBitsChangeNothing : Prop :=
  ∀ w w' : ReqWord, reqOp w = reqOp w' →
    (reqOp w ≠ 0b11#2 → decode w = decode w') ∧
    (reqOp w = 0b11#2 → decode w = .lookup (w.setWidth 8) ∧ (decode w = decode w' → w = w'))

/-- 95_test_vectors.md §2.1: the ten words written out there decode as it says. -/
def Obligations.SpecWordsDecode : Prop :=
  [0x000#10, 0x0FF#10, 0x100#10, 0x1A5#10, 0x200#10, 0x2FF#10, 0x300#10, 0x32E#10, 0x3FE#10,
    0x3FF#10].map decode =
  [.read, .read, .readAngle, .readAngle, .sample, .sample, .lookup 0#8, .lookup 46#8, .lookup 254#8,
    .lookup 255#8]

/-- R78: `LOOKUP <code>` is read for every code, in decimal and in 0x-prefixed hexadecimal, and encodes as
`0x300 | c`; 256 and 0x100 are refused. (The spec's own hexadecimal, 0x2E, is in capitals; that small
letters are read too is the model's, log entry 21.) -/
def Obligations.AssemblerReadsEveryCode : Prop :=
  (∀ c : Code,
    parseRequest [['L', 'O', 'O', 'K', 'U', 'P'], Nat.toDigits 10 c.toNat] = some (.lookup c) ∧
    parseRequest [['L', 'O', 'O', 'K', 'U', 'P'], '0' :: 'x' :: Nat.toDigits 16 c.toNat]
      = some (.lookup c) ∧
    parseRequest [['L', 'O', 'O', 'K', 'U', 'P'],
      '0' :: 'x' :: (Nat.toDigits 16 c.toNat).map Char.toUpper] = some (.lookup c) ∧
    encode (.lookup c) = 0x300#10 ||| c.setWidth 10) ∧
  parseRequest [['L', 'O', 'O', 'K', 'U', 'P'], ['2', '5', '6']] = none ∧
  parseRequest [['L', 'O', 'O', 'K', 'U', 'P'], ['0', 'x', '1', '0', '0']] = none

/-! ### The position ROM -/

/-- R25, R105: the ROM built from a table has the word {valid, pos} of each entry, and RomRead returns the
table's entry; RomRead of any contents is the word's position if its valid bit is set, else None. -/
def Obligations.RomReadReturnsTheTableEntry : Prop :=
  (∀ (m : Memory) (c : Code), romRead m c =
    if (Memory.read m c.toNat).getLsbD 7 then some ((Memory.read m c.toNat).setWidth 7) else none) ∧
  (∀ (t : Code → Option Pos) (c : Code), Memory.read (romImage t) c.toNat =
    match t c with
    | some p => 1#1 ++ p
    | none => 0#8) ∧
  (∀ (t : Code → Option Pos) (c : Code), romRead (romImage t) c = t c)

/-- R101, R103, R104, and the bijection of R102, of the ROM right after reset, whatever TABLE is. Code 0 is the
code of eight false levels; 254 is the code that R103 corrects the source's parenthetical to. -/
def Obligations.ResetRomMeetsTheTableRules : Prop :=
  let t := romRead State.reset.posRom
  ((List.range 256).filter fun c => (t (BitVec.ofNat 8 c)).isSome).length = 128 ∧
  ((List.range 256).filter fun c => (t (BitVec.ofNat 8 c)).isNone).length = 128 ∧
  (∀ p : Pos, ∃! c : Code, t c = some p) ∧
  t 0#8 = some 0#7 ∧ (∀ c, t c = some 0#7 → c = 0#8) ∧ pack (List.replicate 8 false) = 0#8 ∧
  pack [true, true, true, true, true, true, true, false] = 254#8 ∧
  (t 46#8 = some 27#7 ∨ t 46#8 = some 37#7)

/-- "The sum of the positions over all valid codes is 0 + 1 + ... + 127 = 8128", which R102 marks as derived,
of the ROM right after reset, whatever TABLE is. -/
def Obligations.PositionsSumTo8128 : Prop :=
  ((List.range 256).filterMap fun c =>
    (romRead State.reset.posRom (BitVec.ofNat 8 c)).map (·.toNat)).sum = 8128

/-! ### The packer -/

/-- R124: the sum formula, the concatenation and the fold. That the fold stays below 2^j after j levels and that
every code is the pack of exactly one snapshot are what R124 marks as derived from it. -/
def Obligations.PackIsBigEndian : Prop :=
  (∀ s0 s1 s2 s3 s4 s5 s6 s7 : Bool,
    (pack [s0, s1, s2, s3, s4, s5, s6, s7]).toNat =
      s0.toNat * 2 ^ 7 + s1.toNat * 2 ^ 6 + s2.toNat * 2 ^ 5 + s3.toNat * 2 ^ 4 + s4.toNat * 2 ^ 3 +
        s5.toNat * 2 ^ 2 + s6.toNat * 2 ^ 1 + s7.toNat * 2 ^ 0 ∧
    pack [s0, s1, s2, s3, s4, s5, s6, s7] =
      BitVec.ofBool s0 ++ BitVec.ofBool s1 ++ BitVec.ofBool s2 ++ BitVec.ofBool s3 ++ BitVec.ofBool s4 ++
        BitVec.ofBool s5 ++ BitVec.ofBool s6 ++ BitVec.ofBool s7) ∧
  (∀ l : List Bool, l.length ≤ 8 →
    pack l = l.foldl (fun (acc : Code) b => (acc <<< 1) ||| (BitVec.ofBool b).setWidth 8) 0#8 ∧
    (pack l).toNat < 2 ^ l.length) ∧
  (∀ c : Code, ∃! v : Vector Bool 8, pack v.toList = c)

/-- R57: the level answered by handle k is bit 7 - k of the code. -/
def Obligations.HandleIsBitSevenMinusItself : Prop :=
  ∀ (v : Vector Bool 8) (k : Fin 8), (pack v.toList).getLsbD (7 - k.val) = v[k]

/-! ### Micro-steps: acceptance -/

/-- R27, R75, R106: LOOKUP c is accepted in IDLE: op_r, code_r and phase are written and nothing else. -/
def Obligations.LookupIsAccepted : Prop :=
  ∀ (c : Code) (s : State), s.cur.phase = .idle → s.cur.torn = false →
    exec (.lookup c) s =
      .next { s with cur := { s.cur with opR := .lookup, codeR := c, phase := .decode } }

/-- R27, R75, R125, R140, R165: READ, READ_ANGLE and SAMPLE are accepted in IDLE: op_r <- the op,
acc <- 0, k <- 0, wait <- 0, phase <- SAMPLING, and nothing else is written. -/
def Obligations.SamplingOpsAreAccepted : Prop :=
  ∀ (i : Instr) (s : State), (∀ c, i ≠ .lookup c) → s.cur.phase = .idle → s.cur.torn = false →
    exec i s = .next { s with cur :=
      { s.cur with opR := opOf i, acc := 0#8, k := 0#4, wait := false, phase := .sampling } }

/-- R75: when a request word is accepted, op_r <- req[9:8], and code_r <- req[7:0] if that is LOOKUP; what
follows is the operation that the word decodes to. -/
def Obligations.AcceptanceDecodesTheWord : Prop :=
  ∀ (s : State) (w : ReqWord) (rest : List ReqWord), s.cur.phase = .idle → s.cur.torn = false →
    s.cur.req = w :: rest → s.inputs = [] →
    ∃ t, step s = .next t ∧ t.cur.opR.bits = w.extractLsb' 8 2 ∧
      (w.extractLsb' 8 2 = 0b11#2 → t.cur.codeR = w.extractLsb' 0 8) ∧
      t.cur.phase ≠ .idle ∧ t.cur.inProgress = decode w ∧ t.cur.req = rest

/-! ### Micro-steps: the sampler -/

/-- R121: the sampler's micro-steps while k < 8. With wait = 0: wait <- 1 and PinRead(k) is recorded. With
wait = 1 and an answer on PIN_A[k]: for Ok(level), wait <- 0, acc <- ((acc << 1) | level)[7:0], k <- k + 1;
for Err(e), wait <- 0 and the exception. That an answer on another channel, which R121 says cannot occur,
has no step is the model's, log entry 12. -/
def Obligations.SamplerMicroSteps : Prop :=
  ∀ (i : Instr) (s : State) (k : Fin 8), (∀ c, i ≠ .lookup c) → s.cur.phase = .sampling →
    s.cur.opR = opOf i → s.cur.k.toNat = k.val →
    (s.cur.wait = false → exec i s = .next { s with
      cur := { s.cur with wait := true }
      hist := s.hist ++ [.pinRead s.cur.id k (s.cur.line k)] }) ∧
    (∀ (level : Bool) (rest : List Input), s.cur.wait = true → s.inputs = .answer k (.ok level) :: rest →
      exec i s = .next { s with
        cur := { s.cur with
          wait := false
          acc := (s.cur.acc <<< 1) ||| (BitVec.ofBool level).setWidth 8
          k := s.cur.k + 1#4 }
        hist := s.hist ++ [.pinAnswer s.cur.id k (.ok level)]
        inputs := rest }) ∧
    (∀ (e : PinErr) (rest : List Input), s.cur.wait = true → s.inputs = .answer k (.err e) :: rest →
      exec i s = .next (raisePinReadFailure e { s with
        cur := { s.cur with wait := false }
        hist := s.hist ++ [.pinAnswer s.cur.id k (.err e)]
        inputs := rest })) ∧
    (∀ (j : Pin) (r : PinResult) (rest : List Input), s.cur.wait = true → j ≠ k →
      s.inputs = .answer j r :: rest → step s = .refused .unaskedAnswer)

/-- R206: raising PinReadFailure(e), when the outstanding read answers Err(e), is respond(PinFail(e)) and
phase <- IDLE: the whole next state is written out, so that nothing is saved, no vector is taken, no mode
changes, and k, acc and code_r keep their values. -/
def Obligations.FailedReadRaisesPinFail : Prop :=
  ∀ (i : Instr) (s : State) (k : Fin 8) (e : PinErr) (rest : List Input), (∀ c, i ≠ .lookup c) →
    s.cur.phase = .sampling → s.cur.opR = opOf i → s.cur.k.toNat = k.val → s.cur.wait = true →
    s.inputs = .answer k (.err e) :: rest →
    exec i s = .next { s with
      cur := { s.cur with wait := false, phase := .idle, resp := s.cur.resp ++ [.pinFail e] }
      hist := s.hist ++ [.pinAnswer s.cur.id k (.err e)]
      inputs := rest }

/-- R27, R123: at k = 8 READ and READ_ANGLE go to DECODE with code_r <- acc. -/
def Obligations.SamplingEndsInDecode : Prop :=
  ∀ (i : Instr) (s : State), (i = .read ∨ i = .readAngle) → s.cur.phase = .sampling →
    s.cur.opR = opOf i → s.cur.k = 8#4 →
    exec i s = .next { s with cur := { s.cur with codeR := s.cur.acc, phase := .decode } }

/-! ### Micro-steps: the responses, where each instruction completes -/

/-- R123, R125: at k = 8 SAMPLE responds Code(acc) and returns to IDLE. -/
def Obligations.SampleRespondsTheCode : Prop :=
  ∀ s : State, s.cur.phase = .sampling → s.cur.opR = .sample → s.cur.k = 8#4 →
    exec .sample s = .next { s with cur :=
      { s.cur with phase := .idle, resp := s.cur.resp ++ [.code s.cur.acc] } }

/-- R106: in DECODE, LOOKUP c makes one ROM read, at c, responds with the entry and returns to IDLE. -/
def Obligations.LookupRespondsTheEntry : Prop :=
  ∀ (c : Code) (s : State), s.cur.phase = .decode → s.cur.opR = .lookup → s.cur.codeR = c →
    exec (.lookup c) s = .next { s with
      cur := { s.cur with
        phase := .idle
        resp := s.cur.resp ++ [match romRead s.posRom c with
          | some p => .posSome p
          | none => .posNone] }
      hist := s.hist ++ [.romRead s.cur.id c] }

/-- R140: in DECODE, READ makes one ROM read, at code_r, responds with the entry and returns to IDLE. -/
def Obligations.ReadRespondsTheEntry : Prop :=
  ∀ s : State, s.cur.phase = .decode → s.cur.opR = .read →
    exec .read s = .next { s with
      cur := { s.cur with
        phase := .idle
        resp := s.cur.resp ++ [match romRead s.posRom s.cur.codeR with
          | some p => .posSome p
          | none => .posNone] }
      hist := s.hist ++ [.romRead s.cur.id s.cur.codeR] }

/-- R165: in DECODE, READ_ANGLE responds AngleOf(p) for a valid code, with one angle read, and the fallback
angle for an invalid one, and returns to IDLE. -/
def Obligations.ReadAngleRespondsTheAngle : Prop :=
  ∀ s : State, s.cur.phase = .decode → s.cur.opR = .readAngle →
    (∀ p, romRead s.posRom s.cur.codeR = some p → exec .readAngle s = .next { s with
      cur := { s.cur with
        phase := .idle
        resp := s.cur.resp ++ [.angle (angleOf s.build.fmt s.build.conv p)] }
      hist := s.hist ++ [.romRead s.cur.id s.cur.codeR, .angleRead s.cur.id p] }) ∧
    (romRead s.posRom s.cur.codeR = none → exec .readAngle s = .next { s with
      cur := { s.cur with
        phase := .idle
        resp := s.cur.resp ++ [.angle (fallbackAngle s.build)] }
      hist := s.hist ++ [.romRead s.cur.id s.cur.codeR] })

/-! ### Whole operations -/

/-- The headline, over the rules R27, R106, R122, R123, R125, R140 and R165 together: from IDLE, with the
oldest request `i` and the answers its reads draw, the micro-steps come to the response that the operation
has when it is read as one piece, with exactly its reads and accesses, in exactly its number of steps. (That
the history records the ROM and angle accesses too is the model's, log entry 14.) -/
def Obligations.MicroStepsRefineTheOperation : Prop :=
  ∀ (i : Instr) (s : State) (rest : List ReqWord) (rs : List PinResult),
    Ready s i rest rs → pinsComplete (readsDue i) rs = true →
    ∃ r, responseOf s.build s.posRom i rs = some r ∧
      Completes s i rest rs r (accessesOf s i rs)

/-- R106: LOOKUP c, whole: no pin read, one ROM read, the table's entry. (That the history records the ROM read is
the model's, log entry 14.) -/
def Obligations.LookupWhole : Prop :=
  ∀ (c : Code) (s : State) (rest : List ReqWord), Ready s (.lookup c) rest [] →
    Completes s (.lookup c) rest []
      (match romRead s.posRom c with
        | some p => .posSome p
        | none => .posNone) [.romRead s.cur.id c]

/-- R125: SAMPLE, whole, on eight levels: eight reads, the packed code, no other access. -/
def Obligations.SampleWhole : Prop :=
  ∀ (v : Vector Bool 8) (s : State) (rest : List ReqWord),
    Ready s .sample rest (v.toList.map .ok) →
    Completes s .sample rest (v.toList.map .ok) (.code (pack v.toList)) []

/-- R140: READ, whole, on eight levels: eight reads, one ROM read at the packed code, its entry. (That the history
records the ROM read is the model's, log entry 14.) -/
def Obligations.ReadWhole : Prop :=
  ∀ (v : Vector Bool 8) (s : State) (rest : List ReqWord),
    Ready s .read rest (v.toList.map .ok) →
    Completes s .read rest (v.toList.map .ok)
      (match romRead s.posRom (pack v.toList) with
        | some p => .posSome p
        | none => .posNone) [.romRead s.cur.id (pack v.toList)]

/-- R165: READ_ANGLE, whole, on eight levels, for a valid and for an invalid code. (That the history records the ROM
and angle reads is the model's, log entry 14.) -/
def Obligations.ReadAngleWhole : Prop :=
  ∀ (v : Vector Bool 8) (s : State) (rest : List ReqWord),
    Ready s .readAngle rest (v.toList.map .ok) →
    (∀ p, romRead s.posRom (pack v.toList) = some p →
      Completes s .readAngle rest (v.toList.map .ok) (.angle (angleOf s.build.fmt s.build.conv p))
        [.romRead s.cur.id (pack v.toList), .angleRead s.cur.id p]) ∧
    (romRead s.posRom (pack v.toList) = none →
      Completes s .readAngle rest (v.toList.map .ok) (.angle (fallbackAngle s.build))
        [.romRead s.cur.id (pack v.toList)])

/-- R201: if the read behind `levels` is the first to fail, the response is PinFail(e) and nothing else; no
further pin is read; there is no ROM and no angle access; and the reads already issued stay in the history. -/
def Obligations.FirstFailureEndsTheOperation : Prop :=
  ∀ (i : Instr) (levels : List Bool) (e : PinErr) (s : State) (rest : List ReqWord),
    (∀ c, i ≠ .lookup c) → levels.length < 8 →
    Ready s i rest (levels.map .ok ++ [.err e]) →
    Completes s i rest (levels.map .ok ++ [.err e]) (.pinFail e) []

/-- "READ is SAMPLE followed by LOOKUP", on any answers that the eight reads draw: R141, which the spec
marks as derived from R140, R125 and R106. (That the history records the ROM read is the model's, log entry
14.) -/
def Obligations.ReadIsSampleThenLookup : Prop :=
  ∀ (rs : List PinResult) (sS sL sR : State) (restS restL restR : List ReqWord) (acc accL : List Event),
    Ready sS .sample restS rs → Ready sR .read restR rs → pinsComplete 8 rs = true →
    sL.posRom = sR.posRom →
    (∀ c r, Completes sS .sample restS rs (.code c) acc → Ready sL (.lookup c) restL [] →
      Completes sL (.lookup c) restL [] r accL →
      Completes sR .read restR rs r [.romRead sR.cur.id c]) ∧
    (∀ e, Completes sS .sample restS rs (.pinFail e) acc → Completes sR .read restR rs (.pinFail e) [])

/-- "READ_ANGLE is a map of READ", on the same answers: R166, which the spec marks as derived from R165 and
R140. (That the history records the ROM and angle reads is the model's, log entry 14.) -/
def Obligations.ReadAngleIsAMapOfRead : Prop :=
  ∀ (rs : List PinResult) (sR sA : State) (restR restA : List ReqWord) (acc : List Event),
    Ready sR .read restR rs → Ready sA .readAngle restA rs → pinsComplete 8 rs = true →
    sA.posRom = sR.posRom →
    (∀ p, Completes sR .read restR rs (.posSome p) acc →
      ∃ c, Completes sA .readAngle restA rs (.angle (angleOf sA.build.fmt sA.build.conv p))
        [.romRead sA.cur.id c, .angleRead sA.cur.id p]) ∧
    (Completes sR .read restR rs .posNone acc →
      ∃ c, Completes sA .readAngle restA rs (.angle (fallbackAngle sA.build)) [.romRead sA.cur.id c]) ∧
    (∀ e, Completes sR .read restR rs (.pinFail e) acc →
      Completes sA .readAngle restA rs (.pinFail e) [])

/-- R28 and R236 (which the spec marks as derived): two operations with the same request and the same
answers, on the same configuration and ROM, give the same response with the same reads, whatever the
registers, channels and history of the two instances hold. (That the history records the ROM and angle
accesses too is the model's, log entry 14.) -/
def Obligations.NoHiddenState : Prop :=
  ∀ (i : Instr) (s t : State) (restS restT : List ReqWord) (rs : List PinResult) (r : Response)
    (acc : List Event),
    Ready s i restS rs → Ready t i restT rs → pinsComplete (readsDue i) rs = true →
    s.build = t.build → s.posRom = t.posRom →
    Completes s i restS rs r acc → Completes t i restT rs r (accessesOf t i rs)

/-- R56: while the outstanding read is not answered, the instance waits, for ever; it is no fault. (An empty
list of moves is the model's way to say that nothing happens outside, log entry 2.) -/
def Obligations.UnansweredReadWaitsForEver : Prop :=
  ∀ (s : State) (n : Nat), s.cur.phase = .sampling → s.cur.wait = true → s.cur.k.toNat < 8 →
    s.inputs = [] → run n s = .next s

/-- R238: the run of a request sequence ends when the last operation has delivered its response, and not before
it is accepted; it does not end while a read is not answered, nor while a request is still to be offered; and a
run that has ended stays so. (The sequence is what waits and what is due to be offered: log entry 2.) -/
def Obligations.RunEndsWithTheLastResponse : Prop :=
  (∀ (i : Instr) (s : State) (rs : List PinResult), Ready s i [] rs →
    pinsComplete (readsDue i) rs = true → (∀ d ∈ s.others, d.ended) →
    ¬ s.ended ∧ ∃ t, run (stepsOf i rs) s = .next t ∧ t.ended) ∧
  (∀ (s t : State) (n : Nat), s.cur.outstanding = true → s.inputs = [] → run n s = .next t →
    ¬ t.ended) ∧
  (∀ (s : State) (w : ReqWord), Input.offer w ∈ s.inputs → ¬ s.ended) ∧
  (∀ (s t : State) (n : Nat), s.ended → s.inputs = [] → run n s = .next t → t.ended)

/-! ### The sequencer as a whole -/

/-- R22: the index starts at 0 at acceptance, advances by exactly 1 on each successful pin read, never wraps and
never exceeds 8; a failed read leaves it at the failing pin's index and ends the operation; and no other
micro-step changes it. The premise, that the index is in its range before, is the invariant that
StepKeepsTheInvariant states. -/
def Obligations.IndexFollowsTheReads : Prop :=
  ∀ (i : Instr) (s t : State), s.cur.Inv → exec i s = .next t →
    t.cur.k.toNat ≤ 8 ∧
    (s.cur.phase = .idle → t.cur.phase = .sampling → t.cur.k = 0#4) ∧
    (∀ b rest, s.cur.inProgress = i → s.cur.outstanding = true →
      s.inputs = .answer s.cur.pin (.ok b) :: rest → t.cur.k.toNat = s.cur.k.toNat + 1) ∧
    (∀ e rest, s.cur.inProgress = i → s.cur.outstanding = true →
      s.inputs = .answer s.cur.pin (.err e) :: rest → t.cur.k = s.cur.k ∧ t.cur.phase = .idle) ∧
    (t.cur.k = s.cur.k ∨ (s.cur.phase = .idle ∧ t.cur.phase = .sampling) ∨
      (s.cur.outstanding = true ∧ ∃ b rest, s.inputs = .answer s.cur.pin (.ok b) :: rest))

/-- R77, R143: a micro-step delivers at most one response, one that R77 lets its operation produce, and an
angle has the configured format. -/
def Obligations.ResponsesStayInTheirRow : Prop :=
  ∀ (i : Instr) (s t : State), exec i s = .next t →
    t.cur.resp = s.cur.resp ∨
    ∃ r, t.cur.resp = s.cur.resp ++ [r] ∧ t.cur.phase = .idle ∧
      match i with
      | .lookup _ => (∃ p, r = .posSome p) ∨ r = .posNone
      | .read => (∃ p, r = .posSome p) ∨ r = .posNone ∨ ∃ e, r = .pinFail e
      | .readAngle => (∃ a, r = .angle a ∧ a.fmt = s.build.fmt) ∨ ∃ e, r = .pinFail e
      | .sample => (∃ c, r = .code c) ∨ ∃ e, r = .pinFail e

/-- R76: while an operation is in progress, another request changes nothing, and a request that the
requester offers waits at the end of the REQ channel. (That `exec` of another request while busy is a step that
changes nothing is the model's, log entry 17.) -/
def Obligations.BusyInstanceLetsRequestsWait : Prop :=
  (∀ (i : Instr) (s : State), s.cur.phase ≠ .idle → s.cur.inProgress ≠ i → exec i s = .next s) ∧
  (∀ (s : State) (w : ReqWord) (rest : List Input), s.inputs = .offer w :: rest →
    step s = .next { s with cur := { s.cur with req := s.cur.req ++ [w] }, inputs := rest })

/-- R75, R76: a step runs the decoded instruction. In IDLE with a request waiting, the step is `exec` of the
decoded request, which has left the REQ channel; with an operation in progress it is `exec` of that. Both
hold with nothing due outside and at a tick, which is then used up, but that at a tick an outstanding read
waits; and the step at which the outstanding read is answered is `exec` of the operation too. A word that `withFetchWord` places is what the next
step runs. (The list of outside moves, its ticks and `withFetchWord` are the model's, log entries 2 and 18.) -/
def Obligations.StepRunsTheDecodedRequest : Prop :=
  (∀ (s : State) (w : ReqWord) (rest : List ReqWord) (later : List Input), s.cur.phase = .idle →
    s.cur.torn = false → s.cur.req = w :: rest →
    (s.inputs = [] → step s = exec (decode w) { s with cur := { s.cur with req := rest } }) ∧
    (s.inputs = .tick :: later →
      step s = exec (decode w) { s with cur := { s.cur with req := rest }, inputs := later })) ∧
  (∀ (s : State) (later : List Input), s.cur.phase ≠ .idle →
    (s.inputs = [] → step s = exec s.cur.inProgress s) ∧
    (s.inputs = .tick :: later → s.cur.outstanding = false →
      step s = exec s.cur.inProgress { s with inputs := later }) ∧
    (s.inputs = .tick :: later → s.cur.outstanding = true → step s = .next { s with inputs := later })) ∧
  (∀ (s : State) (r : PinResult) (later : List Input), s.cur.outstanding = true →
    s.inputs = .answer s.cur.pin r :: later → step s = exec s.cur.inProgress s) ∧
  (∀ (s : State) (n w : Nat), w < 1024 →
    step (s.withFetchWord n w) =
      exec (decode (BitVec.ofNat 10 w)) { s with cur := { s.cur with
        torn := false, phase := .idle } })

/-! ### Reset, late answers, teardown -/

/-- R31, R230: what reset leaves, in every instance. (The values of op_r, k, acc and code_r are the model's,
log entry 9, and are not claimed.) -/
def Obligations.ResetLeavesAnIdleMachine : Prop :=
  (∀ d ∈ State.reset.instances, d.phase = .idle ∧ d.phase.bits = 0#2 ∧ d.wait = false ∧
    d.resp = [] ∧ d.outstanding = false ∧ reqReady d = true ∧ ∀ k, pinQ d k = false) ∧
  State.reset.posRom = romImage Config.table.entry ∧ State.reset.build = Config.build ∧
  State.reset.hist = []

/-- R205, R231: reset abandons the operation with no response, whatever it was about to do; the reads already
issued stay in the history; and a late answer is discarded with no effect on register, response, history or
request. (What a reset keeps beside that, and the list of abandoned reads, are the model's, log entries 10 and
11.) -/
def Obligations.ResetAbandonsTheOperation : Prop :=
  (∀ (s : State) (rest : List Input), s.inputs = .reset :: rest →
    ∃ t, step s = .next t ∧ t.cur.phase = .idle ∧ t.cur.wait = false ∧ t.cur.resp = s.cur.resp ∧
      t.hist = s.hist ∧ t.cur.req = s.cur.req ∧ t.cur.pins = s.cur.pins ∧ t.cur.torn = s.cur.torn ∧
      t.build = s.build ∧ t.posRom = s.posRom ∧ t.others = s.others ∧ t.inputs = rest ∧
      t.cur.stale = s.cur.stale ++ (if s.cur.outstanding then [s.cur.pin] else [])) ∧
  (∀ (s : State) (k : Pin) (r : PinResult) (rest : List Input), s.inputs = .late k r :: rest →
    k ∈ s.cur.stale →
    step s = .next { s with cur := { s.cur with stale := s.cur.stale.erase k }, inputs := rest })

/-- R54, R239: an answer that answers no outstanding read, where the instance can do nothing else first
because no request waits or it is torn down, and a late answer to no abandoned read, have no step; an answer
on another channel than PIN_A[k] has none. (That "no step" is a refusal is the model's, log entry 12.) -/
def Obligations.UnaskedAnswersHaveNoStep : Prop :=
  ∀ (s : State) (k : Pin) (r : PinResult) (rest : List Input),
    (s.inputs = .answer k r :: rest → s.cur.outstanding = true → k ≠ s.cur.pin →
      step s = .refused .unaskedAnswer) ∧
    (s.inputs = .answer k r :: rest → s.cur.phase = .idle → s.cur.req = [] ∨ s.cur.torn = true →
      step s = .refused .unaskedAnswer) ∧
    (s.inputs = .late k r :: rest → k ∉ s.cur.stale → step s = .refused .unaskedAnswer)

/-- R233: once torn down, an instance accepts no request: from IDLE, with nothing due outside, it stays as it
is for ever, whatever waits in its REQ channel; and teardown releases the eight pins. That it writes nothing else,
with an operation in progress too, is the model's, log entry 13: R233 does not say it and 91_not_in_source.md N16
says that teardown during a read is not in the source; the model follows 30_encoding.md R76 ("Only reset abandons
it") and R27, which has no transition for teardown. -/
def Obligations.TornDownInstanceAcceptsNothing : Prop :=
  (∀ (s : State) (n : Nat), s.cur.phase = .idle → s.cur.torn = true → s.inputs = [] →
    run n s = .next s) ∧
  (∀ (i : Instr) (s : State), s.cur.phase = .idle → s.cur.torn = true → exec i s = .next s) ∧
  (∀ (s : State) (rest : List Input), s.inputs = .teardown :: rest →
    step s = .next { s with cur := { s.cur with torn := true }, inputs := rest } ∧
      ∃ t, step s = .next t ∧ t.cur.owned = [] ∧ t.cur.torn = true)

/-- R233, R76: teardown releases an instance's pins in every phase and abandons no operation: it leaves phase
and the outstanding read as they are, and each micro-step of the operation in progress, the answer to the
outstanding read included, does after teardown what it would have done without it. (That the reads still to be
made go to the inputs the handles are bound to, and that a reset does not revive a torn-down instance, is the
model's, log entry 13.) -/
def Obligations.TeardownReleasesThePins : Prop :=
  (∀ (s : State) (rest : List Input), s.inputs = .teardown :: rest →
    ∃ t, step s = .next t ∧ t.cur.owned = [] ∧ t.cur.torn = true ∧ t.cur.phase = s.cur.phase ∧
      t.cur.inProgress = s.cur.inProgress ∧ t.cur.outstanding = s.cur.outstanding ∧
      t.cur.pins = s.cur.pins ∧ t.cur.req = s.cur.req ∧ t.cur.resp = s.cur.resp ∧
      t.cur.stale = s.cur.stale ∧ t.hist = s.hist ∧ t.others = s.others ∧ t.inputs = rest) ∧
  (∀ (i : Instr) (s t : State), s.cur.phase ≠ .idle → exec i s = .next t →
    exec i (tearDown s) = .next (tearDown t)) ∧
  (∀ s t : State, s.cur.phase ≠ .idle → (∀ rest, s.inputs ≠ .rotate :: rest) → step s = .next t →
    step (tearDown s) = .next (tearDown t))

/-! ### Frames -/

/-- The frame of READ, READ_ANGLE and SAMPLE (R125, R140, R165, "State written"; R24, R25, R53): one micro-step
leaves the handles, their release, the REQ channel, the abandoned reads, the configuration, every word of the ROM and the
other instances as they were; SAMPLE leaves code_r; the history and the responses only grow; and at most
the one answer taken leaves the environment's list. -/
def Obligations.SamplingOpsFrame : Prop :=
  ∀ (i : Instr) (s t : State), (∀ c, i ≠ .lookup c) → exec i s = .next t →
    t.cur.id = s.cur.id ∧ t.cur.pins = s.cur.pins ∧ t.cur.torn = s.cur.torn ∧ t.cur.req = s.cur.req ∧
    t.cur.stale = s.cur.stale ∧
    (i = .sample → t.cur.codeR = s.cur.codeR) ∧
    t.build = s.build ∧ (∀ a, Memory.read t.posRom a = Memory.read s.posRom a) ∧
    t.others = s.others ∧ s.hist <+: t.hist ∧ s.cur.resp <+: t.cur.resp ∧
    (t.inputs = s.inputs ∨ ∃ r, s.inputs = .answer s.cur.pin r :: t.inputs)

/-- The frame of LOOKUP (R106, "acc, k and wait are not written"; R24, R25, R53): beside those, it leaves the
handles, their release, the REQ channel, the abandoned reads, the configuration, every word of the ROM, the other
instances and the environment's list as they were, and it issues no pin read. -/
def Obligations.LookupFrame : Prop :=
  ∀ (c : Code) (s t : State), exec (.lookup c) s = .next t →
    t.cur.acc = s.cur.acc ∧ t.cur.k = s.cur.k ∧ t.cur.wait = s.cur.wait ∧
    t.cur.id = s.cur.id ∧ t.cur.pins = s.cur.pins ∧ t.cur.torn = s.cur.torn ∧ t.cur.req = s.cur.req ∧
    t.cur.stale = s.cur.stale ∧
    t.build = s.build ∧ (∀ a, Memory.read t.posRom a = Memory.read s.posRom a) ∧
    t.others = s.others ∧ t.inputs = s.inputs ∧ s.hist <+: t.hist ∧ pinReads t.hist = pinReads s.hist ∧
    s.cur.resp <+: t.cur.resp

/-- R24, R25, R233: no step changes the configuration, the ROM or the inputs an instance's handles are bound to;
none but teardown tears an instance down, and it releases the pins of the instance it is for and of no other.
Two things in it are the model's and no rule of the spec. Log entry 13 (DESIGN CHOICE, unsafe as to reset): a step
that is no teardown leaves the same instances torn down, so that a reset does not revive one; R233 says only that
"Once torn down, an instance accepts no request". Log entry 8 (DESIGN CHOICE): instances have numbers, which no
step changes; one of them has the turn, and teardown is for that one; a change of turn permutes them, so that
they are compared up to their order. -/
def Obligations.ConstantsNeverChange : Prop :=
  ∀ s t : State, step s = .next t →
    t.build = s.build ∧ t.posRom = s.posRom ∧
    (t.instances.map fun d => (d.id, d.pins)).Perm (s.instances.map fun d => (d.id, d.pins)) ∧
    ((∀ rest, s.inputs ≠ .teardown :: rest) →
      (t.instances.map fun d => (d.id, d.torn)).Perm (s.instances.map fun d => (d.id, d.torn))) ∧
    (∀ rest, s.inputs = .teardown :: rest →
      t.cur.torn = true ∧ t.cur.owned = [] ∧ t.others = s.others)

/-! ### Invariants -/

/-- R22, R27, R54, R101 to R104, R124, R215, R232: every step, teardown (R233; log entry 13) among them, keeps
the machine's invariant. (That instances have numbers, and that these differ, is the model's, log entry 8.) -/
def Obligations.StepKeepsTheInvariant : Prop :=
  ∀ s t : State, s.Inv → step s = .next t → t.Inv

/-- The invariant holds right after reset. -/
def Obligations.ResetMeetsTheInvariant : Prop := State.reset.Inv

/-- R203: no fault exists: in a state that meets the invariant no step and no instruction faults. -/
def Obligations.NoFaultExists : Prop :=
  ∀ (s : State) (i : Instr), s.Inv → NoFault (step s) ∧ NoFault (exec i s)

/-! ### Isolation -/

/-- R62, R215 (the latter marked as derived in part): a step of one instance neither reads nor writes
another, nor reads the history; passing the turn, which is the model's (log entry 8), changes no instance.
-/
def Obligations.InstancesDoNotInteract : Prop :=
  (∀ (s t : State) (os : List Decoder) (h : List Event), (∀ rest, s.inputs ≠ .rotate :: rest) →
    step s = .next t →
    t.others = s.others ∧ ∃ e, t.hist = s.hist ++ e ∧
      step { s with others := os, hist := h } = .next { t with others := os, hist := h ++ e }) ∧
  (∀ (s : State) (rest : List Input), s.inputs = .rotate :: rest →
    ∃ t, step s = .next t ∧ t.instances.Perm s.instances ∧ t.hist = s.hist ∧ t.inputs = rest ∧
      t.build = s.build ∧ t.posRom = s.posRom)

/-- R8, R10, R200: PinErr is opaque: a renaming of the payloads, whatever type they are of, goes through a step
unchanged. -/
def Obligations.PayloadsAreOpaque : Prop :=
  ∀ (f : PinErr → PinErr) (s : State), step (s.rename f) = renameOutcome f (step s)

/-! ### Ports -/

/-- R30, R77: the response signals carry the response: valid, status, payload field, the others 0; and the
op of the request tells Code from Angle. resp_valid is 1 exactly in a step that delivers a response. The
answer signals carry the answer: pin_a_valid[k] is 1 exactly when what happens next is the answer to the
outstanding read of pin k, or a late answer of pin k to an abandoned read (R231), and an answer that a step
takes is on the signals in that step. (That idle signals are 0, when the signals show an answer, and that
a 0 in a payload's place is kept apart from payloads, is the model's, log entry 24.) -/
def Obligations.PortsCarryTheChannels : Prop :=
  (∀ (f : AngleFmt) (o : Op) (r : Response), r.answers o = true →
    respOfPort o (respPort f r) = some r) ∧
  (∀ (f : AngleFmt) (p : Pos), respPort f (.posSome p) = ⟨true, 0b00#2, p, 0#8, Angle.zero f, none⟩) ∧
  (∀ f : AngleFmt, respPort f .posNone = ⟨true, 0b01#2, 0#7, 0#8, Angle.zero f, none⟩) ∧
  (∀ (f : AngleFmt) (e : PinErr),
    respPort f (.pinFail e) = ⟨true, 0b10#2, 0#7, 0#8, Angle.zero f, some e⟩) ∧
  (∀ (f : AngleFmt) (c : Code), respPort f (.code c) = ⟨true, 0b11#2, 0#7, c, Angle.zero f, none⟩) ∧
  (∀ (f : AngleFmt) (a : Angle), respPort f (.angle a) = ⟨true, 0b11#2, 0#7, 0#8, a, none⟩) ∧
  (∀ (f : AngleFmt) (i : Instr) (s t : State), exec i s = .next t →
    (t.cur.resp = s.cur.resp ∧ (respSignals f s.cur t.cur).valid = false) ∨
    ∃ r, t.cur.resp = s.cur.resp ++ [r] ∧ respSignals f s.cur t.cur = respPort f r) ∧
  (∀ r : PinResult, pinOfPort (pinPort r) = some r) ∧
  (∀ (s : State) (r : PinResult) (rest : List Input), s.cur.outstanding = true →
    s.inputs = .answer s.cur.pin r :: rest →
    pinOfPort (pinA s s.cur.pin) = some r ∧ ∀ j, j ≠ s.cur.pin → (pinA s j).valid = false) ∧
  (∀ (s t : State) (n : Nat) (k : Pin) (r : PinResult), step s = .next t →
    t.hist = s.hist ++ [.pinAnswer n k r] → pinOfPort (pinA s k) = some r) ∧
  (∀ (s : State) (k : Pin) (r : PinResult) (rest : List Input), s.inputs = .late k r :: rest →
    k ∈ s.cur.stale → pinOfPort (pinA s k) = some r) ∧
  (∀ (s : State) (k : Pin), (pinA s k).valid = true ↔
    ∃ r rest, (s.inputs = .answer k r :: rest ∧ s.cur.outstanding = true ∧ k = s.cur.pin) ∨
      (s.inputs = .late k r :: rest ∧ k ∈ s.cur.stale))

/-- R30: req_ready = 1 exactly when phase = IDLE, and a REQ transfer happens when req_valid and req_ready
are both 1: the step then runs the word on req_word, which leaves the channel; otherwise no request is
accepted. (Nothing due outside is an empty list in the model, log entry 2; that req_valid is 0 at a
torn-down instance is the model's, log entry 24.) -/
def Obligations.RequestTransfersWhenValidAndReady : Prop :=
  (∀ d : Decoder, reqReady d = true ↔ d.phase = .idle) ∧
  (∀ s : State, s.inputs = [] → reqValid s.cur = true → reqReady s.cur = true →
    step s = exec (decode (reqWord s.cur)) { s with cur := { s.cur with req := s.cur.req.tail } } ∧
    ∃ t, step s = .next t ∧ t.cur.req = s.cur.req.tail) ∧
  (∀ s t : State, s.inputs = [] → (reqValid s.cur && reqReady s.cur) = false → step s = .next t →
    t.cur.req = s.cur.req)

/-- R30, R54: at most one pin is asked at a time, the one the index selects, and only while a read is
outstanding; no request is accepted then. (That pin_q[k] holds from the issue step until the answer, and so
with wait = 1, is the model's, log entry 24.) -/
def Obligations.OnePinReadAtATime : Prop :=
  ∀ (d : Decoder) (j k : Pin), pinQ d j = true →
    (pinQ d k = true → j = k) ∧ j.val = d.k.toNat ∧ d.phase = .sampling ∧ d.wait = true ∧
      reqReady d = false

/-! ### The angle unit -/

/-- PI_F, TWO_PI_F and C have the bit patterns of the table of R163, which the spec derives from R161 and from
general knowledge (log entry 15). -/
def Obligations.AngleConstants : Prop :=
  (piF .binary64).toAngle .binary64 = .binary64 0x400921FB54442D18#64 ∧
  (twoPiF .binary64).toAngle .binary64 = .binary64 0x401921FB54442D18#64 ∧
  (angleStep .binary64).toAngle .binary64 = .binary64 0x3FA954A49D7F2B6F#64 ∧
  (piF .binary32).toAngle .binary32 = .binary32 0x40490FDB#32 ∧
  (twoPiF .binary32).toAngle .binary32 = .binary32 0x40C90FDB#32 ∧
  (angleStep .binary32).toAngle .binary32 = .binary32 0x3D4AA525#32

/-- "PI_F = fl_F(π), the format's nearest value to π" (R161): of the pattern that R163 takes from general
knowledge (log entry 15), no other multiple of the unit in the last place of [2, 4) is nearer. -/
def Obligations.PiIsTheNearest : Prop :=
  (∀ m : ℤ, |Real.pi - ((piF .binary64).value : ℝ)| ≤ |Real.pi - (m : ℝ) * 2 ^ (-51 : ℤ)|) ∧
  (∀ m : ℤ, |Real.pi - ((piF .binary32).value : ℝ)| ≤ |Real.pi - (m : ℝ) * 2 ^ (-22 : ℤ)|)

/-- R11, R160: rounding is to nearest, ties to even. The result has the sign and a normalised significand of
`prec` bits; it lies within half a unit in the last place of the exact value; no other number with a
significand of `prec` bits is nearer to it, just below a power of two too, where the spacing halves; and if
another one is equally near, the result's significand is even. (IEEE 754 is general knowledge, log entry
15.) -/
def Obligations.RoundingIsNearestEven : Prop :=
  ∀ (prec : Nat) (neg : Bool) (num den : Nat) (e : Int), 2 ≤ prec → 0 < num → 0 < den →
    let x := roundRat prec neg num den e
    let exact : ℚ := (num : ℚ) / den * (2 : ℚ) ^ e
    let error : ℚ := |exact - x.man * (2 : ℚ) ^ x.exp|
    x.neg = neg ∧ 2 ^ (prec - 1) ≤ x.man ∧ x.man < 2 ^ prec ∧ error ≤ (2 : ℚ) ^ (x.exp - 1) ∧
    ∀ (m : Nat) (e' : Int), 2 ^ (prec - 1) ≤ m → m < 2 ^ prec →
      error ≤ |exact - m * (2 : ℚ) ^ e'| ∧
      (error = |exact - m * (2 : ℚ) ^ e'| → (m : ℚ) * (2 : ℚ) ^ e' ≠ x.man * (2 : ℚ) ^ x.exp →
        x.man % 2 = 0)

/-- The endpoints, strict growth, the closed ranges, and that no CENTRED angle is 0.0: R162, which the spec
marks as derived from R161. -/
def Obligations.AngleRangeAndEndpoints : Prop :=
  ∀ f : AngleFmt,
    angleOf f .zeroBased 0#7 = Angle.zero f ∧
    angleOf f .zeroBased 127#7 = (twoPiF f).toAngle f ∧
    angleOf f .centred 0#7 = ({ piF f with neg := true } : Fp).toAngle f ∧
    angleOf f .centred 127#7 = (piF f).toAngle f ∧
    (∀ (v : AngleConv) (p q : Pos), p < q → (angleOf f v p).value < (angleOf f v q).value) ∧
    (∀ p : Pos, 0 ≤ (angleOf f .zeroBased p).value ∧
      (angleOf f .zeroBased p).value ≤ (twoPiF f).value) ∧
    (∀ p : Pos, -(piF f).value ≤ (angleOf f .centred p).value ∧
      (angleOf f .centred p).value ≤ (piF f).value ∧ (angleOf f .centred p).value ≠ 0)

/-- The formula (2π / 127) × p of R161, less π for CENTRED, holds of AngleOf up to rounding: within 2^-50 in
binary64 and 2^-21 in binary32. -/
def Obligations.AngleFollowsTheFormula : Prop :=
  ∀ p : Pos,
    |((angleOf .binary64 .zeroBased p).value : ℝ) - 2 * Real.pi / 127 * p.toNat| ≤ 2 ^ (-50 : ℤ) ∧
    |((angleOf .binary64 .centred p).value : ℝ) - (2 * Real.pi / 127 * p.toNat - Real.pi)|
      ≤ 2 ^ (-50 : ℤ) ∧
    |((angleOf .binary32 .zeroBased p).value : ℝ) - 2 * Real.pi / 127 * p.toNat| ≤ 2 ^ (-21 : ℤ) ∧
    |((angleOf .binary32 .centred p).value : ℝ) - (2 * Real.pi / 127 * p.toNat - Real.pi)|
      ≤ 2 ^ (-21 : ℤ)

/-- R26, R167: the ROM and the multiplier deliver the same bit pattern for every position. -/
def Obligations.RomAndMultiplierAgree : Prop :=
  (∀ (f : AngleFmt) (v : AngleConv), (angleRom f v).length = 128) ∧
  (∀ (f : AngleFmt) (v : AngleConv) (p : Pos), (angleRom f v)[p.toNat]? = some (angleOf f v p)) ∧
  (∀ (b : Build) (p : Pos), angleUnit b p = angleOf b.fmt b.conv p)

/-- R164: the fallback's bit patterns, that ANGLE_CONV does not offset it, and the consequences that R164
marks as derived: when the requester can tell it from an angle. -/
def Obligations.FallbackAgainstTheAngles : Prop :=
  (∀ v u, fallbackAngle ⟨.ten, v, .binary64, u⟩ = .binary64 0x4024000000000000#64 ∧
    fallbackAngle ⟨.ten, v, .binary32, u⟩ = .binary32 0x41200000#32 ∧
    fallbackAngle ⟨.zero, v, .binary64, u⟩ = .binary64 0#64 ∧
    fallbackAngle ⟨.zero, v, .binary32, u⟩ = .binary32 0#32) ∧
  (∀ v f u, (fallbackAngle ⟨.ten, v, f, u⟩).value = 10 ∧
    (fallbackAngle ⟨.zero, v, f, u⟩).value = 0 ∧ (twoPiF f).value < 10) ∧
  (∀ v f u p, fallbackAngle ⟨.ten, v, f, u⟩ ≠ angleOf f v p) ∧
  (∀ f u, fallbackAngle ⟨.zero, .zeroBased, f, u⟩ = angleOf f .zeroBased 0#7) ∧
  (∀ f u p, fallbackAngle ⟨.zero, .centred, f, u⟩ ≠ angleOf f .centred p)
end

