-- ==== Sys2Proof/Laws/PerInstr.lean ====
section
/-! SUPPORT. Facts about each instruction as syntax, one lemma per constructor. -/

namespace Sys2Proof.Laws.Row

/-- The canonical word of the instruction is in its own row of the opcode map, in no other, and is the row's
match value in the bits the row's mask selects (30_encoding.md R73). -/
def Statement (i : Instr) : Prop :=
  (opcodeMap.filter fun r => r.accepts (encode i)).map (·.mnemonic) = [i.mnemonic] ∧
  ∀ r ∈ opcodeMap, r.mnemonic = i.mnemonic → encode i &&& r.mask = r.pattern

theorem read : Statement .read := by
  unfold Statement
  decide

theorem readAngle : Statement .readAngle := by
  unfold Statement
  decide

theorem sample : Statement .sample := by
  unfold Statement
  decide

theorem lookup (c : Code) : Statement (.lookup c) := by
  unfold Statement
  revert c
  decide +kernel

end Sys2Proof.Laws.Row
end

