-- ==== Sys2Proof/Laws/Ports.lean ====
section
/-! SUPPORT. The small lemmas of the port view. -/

namespace Sys2Proof.Machine

/-- A pin answer is read back from the signals that carry it. -/
@[simp] theorem pinOfPort_pinPort (r : PinResult) : pinOfPort (pinPort r) = some r := by
  cases r <;> rfl

@[simp] theorem pinPort_valid (r : PinResult) : (pinPort r).valid = true := by
  cases r <;> rfl

/-- A step that delivers no response leaves the response signals idle. -/
theorem respSignals_none (f : AngleFmt) {d d' : Decoder} (h : d'.resp = d.resp) :
    respSignals f d d' = respIdle f := by
  simp [respSignals, h]

/-- A step that delivers a response puts it on the signals. -/
theorem respSignals_append (f : AngleFmt) {d d' : Decoder} {r : Response} (h : d'.resp = d.resp ++ [r]) :
    respSignals f d d' = respPort f r := by
  simp [respSignals, h]

end Sys2Proof.Machine
end

