-- ==== Sys2Proof/Laws/Rom.lean ====
section
/-! SUPPORT. The position ROM's canonical form. RomRead, the only operation, returns no memory, and no
operation of the machine writes one, so the form is kept once the ROM is built in it. -/

namespace Sys2Proof.Machine

theorem romWord_some_ne_zero (p : Pos) : romWord (some p) ≠ 0#8 := by
  revert p
  decide +kernel

/-- Whatever the table, the ROM built from it is in canonical form. -/
theorem romImage_wf (t : Code → Option Pos) : (romImage t).wf = true := by
  have hmem : ∀ x ∈ romImage t, x.1 < 256 ∧ x.2 ≠ 0#8 := by
    intro x hx
    simp only [romImage, List.mem_filterMap, List.mem_range] at hx
    obtain ⟨c, hc, hx⟩ := hx
    cases h : t (BitVec.ofNat 8 c) with
    | none => simp [h] at hx
    | some p =>
      simp only [h, Option.some.injEq] at hx
      subst hx
      exact ⟨hc, romWord_some_ne_zero p⟩
  have hsort : (romImage t).Pairwise fun x y => x.1 < y.1 := by
    refine List.Pairwise.filterMap _ ?_ (List.pairwise_lt_range (n := 256))
    intro a b hab x hx y hy
    cases ha : t (BitVec.ofNat 8 a) with
    | none => simp [ha] at hx
    | some p =>
      cases hb : t (BitVec.ofNat 8 b) with
      | none => simp [hb] at hy
      | some q =>
        simp only [ha, hb, Option.some.injEq] at hx hy
        subst hx hy
        exact hab
  simp only [Memory.wf, Bool.and_eq_true, decide_eq_true_eq, List.all_eq_true, bne_iff_ne]
  exact ⟨hsort, fun x hx => hmem x hx⟩

/-- The ROM right after reset is in canonical form. -/
theorem reset_posRom_wf : State.reset.posRom.wf = true := romImage_wf _

end Sys2Proof.Machine
end

