-- ==== Sys2Proof/Laws/State.lean ====
section
/-! SUPPORT. One lemma per field of State for each update the operations make, all true by definition, so that
no proof unfolds a record update. -/

namespace Sys2Proof.Machine

@[simp] theorem owned_of_torn {d : Decoder} (h : d.torn = true) : d.owned = [] := if_pos h

@[simp] theorem owned_of_alive {d : Decoder} (h : d.torn = false) : d.owned = d.pins.toList :=
  if_neg (by simp [h])

/-- An instance owns no input but those its handles are bound to. -/
theorem owned_sublist (d : Decoder) : d.owned.Sublist d.pins.toList := by
  unfold Decoder.owned
  split
  · exact List.nil_sublist _
  · exact List.Sublist.refl _

@[simp] theorem log_build (e : Event) (s : State) : (s.log e).build = s.build := rfl
@[simp] theorem log_posRom (e : Event) (s : State) : (s.log e).posRom = s.posRom := rfl
@[simp] theorem log_others (e : Event) (s : State) : (s.log e).others = s.others := rfl
@[simp] theorem log_inputs (e : Event) (s : State) : (s.log e).inputs = s.inputs := rfl
@[simp] theorem log_hist (e : Event) (s : State) : (s.log e).hist = s.hist ++ [e] := rfl
@[simp] theorem log_cur (e : Event) (s : State) :
    (s.log e).cur = s.cur := rfl

@[simp] theorem respond_build (r : Response) (s : State) : (respond r s).build = s.build := rfl
@[simp] theorem respond_posRom (r : Response) (s : State) : (respond r s).posRom = s.posRom := rfl
@[simp] theorem respond_others (r : Response) (s : State) : (respond r s).others = s.others := rfl
@[simp] theorem respond_inputs (r : Response) (s : State) : (respond r s).inputs = s.inputs := rfl
@[simp] theorem respond_hist (r : Response) (s : State) : (respond r s).hist = s.hist := rfl
@[simp] theorem respond_cur (r : Response) (s : State) :
    (respond r s).cur = { s.cur with phase := .idle, resp := s.cur.resp ++ [r] } := rfl

@[simp] theorem issueRead_build (s : State) : (issueRead s).build = s.build := rfl
@[simp] theorem issueRead_posRom (s : State) : (issueRead s).posRom = s.posRom := rfl
@[simp] theorem issueRead_others (s : State) : (issueRead s).others = s.others := rfl
@[simp] theorem issueRead_inputs (s : State) : (issueRead s).inputs = s.inputs := rfl
@[simp] theorem issueRead_hist (s : State) :
    (issueRead s).hist = s.hist ++ [.pinRead s.cur.id s.cur.pin (s.cur.line s.cur.pin)] := rfl
@[simp] theorem issueRead_cur (s : State) :
    (issueRead s).cur = { s.cur with wait := true } := rfl

@[simp] theorem takeLevel_build (b : Bool) (s : State) : (takeLevel b s).build = s.build := rfl
@[simp] theorem takeLevel_posRom (b : Bool) (s : State) : (takeLevel b s).posRom = s.posRom := rfl
@[simp] theorem takeLevel_others (b : Bool) (s : State) : (takeLevel b s).others = s.others := rfl
@[simp] theorem takeLevel_inputs (b : Bool) (s : State) : (takeLevel b s).inputs = s.inputs := rfl
@[simp] theorem takeLevel_hist (b : Bool) (s : State) : (takeLevel b s).hist = s.hist := rfl
@[simp] theorem takeLevel_cur (b : Bool) (s : State) :
    (takeLevel b s).cur = { s.cur with acc := packStep s.cur.acc b, k := s.cur.k + 1#4 } := rfl

@[simp] theorem endToDecode_build (s : State) : (endToDecode s).build = s.build := rfl
@[simp] theorem endToDecode_posRom (s : State) : (endToDecode s).posRom = s.posRom := rfl
@[simp] theorem endToDecode_others (s : State) : (endToDecode s).others = s.others := rfl
@[simp] theorem endToDecode_inputs (s : State) : (endToDecode s).inputs = s.inputs := rfl
@[simp] theorem endToDecode_hist (s : State) : (endToDecode s).hist = s.hist := rfl
@[simp] theorem endToDecode_cur (s : State) :
    (endToDecode s).cur = { s.cur with codeR := s.cur.acc, phase := .decode } := rfl

@[simp] theorem endToCode_build (s : State) : (endToCode s).build = s.build := rfl
@[simp] theorem endToCode_posRom (s : State) : (endToCode s).posRom = s.posRom := rfl
@[simp] theorem endToCode_others (s : State) : (endToCode s).others = s.others := rfl
@[simp] theorem endToCode_inputs (s : State) : (endToCode s).inputs = s.inputs := rfl
@[simp] theorem endToCode_hist (s : State) : (endToCode s).hist = s.hist := rfl
@[simp] theorem endToCode_cur (s : State) :
    (endToCode s).cur = { s.cur with phase := .idle, resp := s.cur.resp ++ [.code s.cur.acc] } := rfl

@[simp] theorem raisePinReadFailure_build (e : PinErr) (s : State) :
    (raisePinReadFailure e s).build = s.build := rfl
@[simp] theorem raisePinReadFailure_posRom (e : PinErr) (s : State) :
    (raisePinReadFailure e s).posRom = s.posRom := rfl
@[simp] theorem raisePinReadFailure_others (e : PinErr) (s : State) :
    (raisePinReadFailure e s).others = s.others := rfl
@[simp] theorem raisePinReadFailure_inputs (e : PinErr) (s : State) :
    (raisePinReadFailure e s).inputs = s.inputs := rfl
@[simp] theorem raisePinReadFailure_hist (e : PinErr) (s : State) :
    (raisePinReadFailure e s).hist = s.hist := rfl
@[simp] theorem raisePinReadFailure_cur (e : PinErr) (s : State) :
    (raisePinReadFailure e s).cur = { s.cur with phase := .idle, resp := s.cur.resp ++ [.pinFail e] } := rfl

@[simp] theorem decodePosition_build (s : State) : (decodePosition s).build = s.build := rfl
@[simp] theorem decodePosition_posRom (s : State) : (decodePosition s).posRom = s.posRom := rfl
@[simp] theorem decodePosition_others (s : State) : (decodePosition s).others = s.others := rfl
@[simp] theorem decodePosition_inputs (s : State) : (decodePosition s).inputs = s.inputs := rfl
@[simp] theorem decodePosition_hist (s : State) :
    (decodePosition s).hist = s.hist ++ [.romRead s.cur.id s.cur.codeR] := rfl
@[simp] theorem decodePosition_cur (s : State) :
    (decodePosition s).cur = { s.cur with
      phase := .idle
      resp := s.cur.resp ++ [positionResponse (romRead s.posRom s.cur.codeR)] } := rfl

@[simp] theorem decodeAngle_build (s : State) : (decodeAngle s).build = s.build := rfl
@[simp] theorem decodeAngle_posRom (s : State) : (decodeAngle s).posRom = s.posRom := rfl
@[simp] theorem decodeAngle_others (s : State) : (decodeAngle s).others = s.others := rfl
@[simp] theorem decodeAngle_inputs (s : State) : (decodeAngle s).inputs = s.inputs := rfl
@[simp] theorem decodeAngle_hist (s : State) :
    (decodeAngle s).hist = s.hist ++ angleAccesses s.cur.id s.cur.codeR (romRead s.posRom s.cur.codeR) := rfl
@[simp] theorem decodeAngle_cur (s : State) :
    (decodeAngle s).cur = { s.cur with
      phase := .idle
      resp := s.cur.resp ++ [.angle (angleFor s.build (romRead s.posRom s.cur.codeR))] } := rfl

@[simp] theorem offerRequest_build (w : ReqWord) (s : State) :
    (offerRequest w s).build = s.build := rfl
@[simp] theorem offerRequest_posRom (w : ReqWord) (s : State) :
    (offerRequest w s).posRom = s.posRom := rfl
@[simp] theorem offerRequest_others (w : ReqWord) (s : State) :
    (offerRequest w s).others = s.others := rfl
@[simp] theorem offerRequest_inputs (w : ReqWord) (s : State) :
    (offerRequest w s).inputs = s.inputs := rfl
@[simp] theorem offerRequest_hist (w : ReqWord) (s : State) : (offerRequest w s).hist = s.hist := rfl
@[simp] theorem offerRequest_cur (w : ReqWord) (s : State) :
    (offerRequest w s).cur = { s.cur with req := s.cur.req ++ [w] } := rfl

@[simp] theorem discardLate_build (p : Pin) (s : State) : (discardLate p s).build = s.build := rfl
@[simp] theorem discardLate_posRom (p : Pin) (s : State) : (discardLate p s).posRom = s.posRom := rfl
@[simp] theorem discardLate_others (p : Pin) (s : State) : (discardLate p s).others = s.others := rfl
@[simp] theorem discardLate_inputs (p : Pin) (s : State) : (discardLate p s).inputs = s.inputs := rfl
@[simp] theorem discardLate_hist (p : Pin) (s : State) : (discardLate p s).hist = s.hist := rfl
@[simp] theorem discardLate_cur (p : Pin) (s : State) :
    (discardLate p s).cur = { s.cur with stale := s.cur.stale.erase p } := rfl

@[simp] theorem tearDown_build (s : State) : (tearDown s).build = s.build := rfl
@[simp] theorem tearDown_posRom (s : State) : (tearDown s).posRom = s.posRom := rfl
@[simp] theorem tearDown_others (s : State) : (tearDown s).others = s.others := rfl
@[simp] theorem tearDown_inputs (s : State) : (tearDown s).inputs = s.inputs := rfl
@[simp] theorem tearDown_hist (s : State) : (tearDown s).hist = s.hist := rfl
@[simp] theorem tearDown_cur (s : State) : (tearDown s).cur = { s.cur with torn := true } := rfl

@[simp] theorem resetInstance_build (s : State) : (resetInstance s).build = s.build := rfl
@[simp] theorem resetInstance_posRom (s : State) : (resetInstance s).posRom = s.posRom := rfl
@[simp] theorem resetInstance_others (s : State) : (resetInstance s).others = s.others := rfl
@[simp] theorem resetInstance_inputs (s : State) : (resetInstance s).inputs = s.inputs := rfl
@[simp] theorem resetInstance_hist (s : State) : (resetInstance s).hist = s.hist := rfl
@[simp] theorem resetInstance_cur (s : State) :
    (resetInstance s).cur = s.cur.abandon := rfl

@[simp] theorem abandon_id (d : Decoder) : d.abandon.id = d.id := rfl
@[simp] theorem abandon_pins (d : Decoder) : d.abandon.pins = d.pins := rfl
@[simp] theorem abandon_torn (d : Decoder) : d.abandon.torn = d.torn := rfl
@[simp] theorem abandon_phase (d : Decoder) : d.abandon.phase = .idle := rfl
@[simp] theorem abandon_wait (d : Decoder) : d.abandon.wait = false := rfl
@[simp] theorem abandon_opR (d : Decoder) : d.abandon.opR = .read := rfl
@[simp] theorem abandon_k (d : Decoder) : d.abandon.k = 0#4 := rfl
@[simp] theorem abandon_acc (d : Decoder) : d.abandon.acc = 0#8 := rfl
@[simp] theorem abandon_codeR (d : Decoder) : d.abandon.codeR = 0#8 := rfl
@[simp] theorem abandon_req (d : Decoder) : d.abandon.req = d.req := rfl
@[simp] theorem abandon_resp (d : Decoder) : d.abandon.resp = d.resp := rfl
@[simp] theorem abandon_stale (d : Decoder) : d.abandon.stale =
    if d.outstanding then d.stale ++ [d.pin] else d.stale := rfl

@[simp] theorem passTurn_build (s : State) : (passTurn s).build = s.build := by
  unfold passTurn; split <;> rfl
@[simp] theorem passTurn_posRom (s : State) : (passTurn s).posRom = s.posRom := by
  unfold passTurn; split <;> rfl
@[simp] theorem passTurn_hist (s : State) : (passTurn s).hist = s.hist := by
  unfold passTurn; split <;> rfl
@[simp] theorem passTurn_inputs (s : State) : (passTurn s).inputs = s.inputs := by
  unfold passTurn; split <;> rfl

end Sys2Proof.Machine
end

