-- ==== Sys2Proof/Laws/Step.lean ====
section
/-! SUPPORT. What one micro-step and one step can do, said once: the transitions of 10_state.md R27 as a
relation, and the moves of the environment beside them. -/

namespace Sys2Proof.Machine

/-- The micro-steps of an instruction, one constructor per transition of R27, and the two ways to stand
still: waiting for an answer (R56) and not being accepted (R76, R233). -/
inductive Micro : Instr → State → State → Prop where
  | stay {i s} : Micro i s s
  | acceptLookup {c s} : s.cur.phase = .idle → s.cur.torn = false →
      Micro (.lookup c) s { s with cur := { s.cur with opR := .lookup, codeR := c, phase := .decode } }
  | acceptSampling {i s} : (∀ c, i ≠ .lookup c) → s.cur.phase = .idle → s.cur.torn = false →
      Micro i s { s with cur :=
        { s.cur with opR := opOf i, acc := 0#8, k := 0#4, wait := false, phase := .sampling } }
  | issue {i s} : (∀ c, i ≠ .lookup c) → s.cur.phase = .sampling → s.cur.opR = opOf i →
      s.cur.k.toNat < 8 → s.cur.wait = false → Micro i s (issueRead s)
  | answer {i s r rest} : (∀ c, i ≠ .lookup c) → s.cur.phase = .sampling → s.cur.opR = opOf i →
      s.cur.k.toNat < 8 → s.cur.wait = true → s.inputs = .answer s.cur.pin r :: rest →
      Micro i s (deliverAnswer r { s with inputs := rest })
  | endSample {s} : s.cur.phase = .sampling → s.cur.opR = .sample → s.cur.k.toNat = 8 →
      Micro .sample s (endToCode s)
  | endRead {i s} : i = .read ∨ i = .readAngle → s.cur.phase = .sampling → s.cur.opR = opOf i →
      s.cur.k.toNat = 8 → Micro i s (endToDecode s)
  | position {i s} : (∃ c, i = .lookup c ∧ s.cur.codeR = c) ∨ i = .read → s.cur.phase = .decode →
      s.cur.opR = opOf i → Micro i s (decodePosition s)
  | angle {s} : s.cur.phase = .decode → s.cur.opR = .readAngle → Micro .readAngle s (decodeAngle s)

/-- The sampling micro-step, inverted. -/
theorem samplingStep_next {atEnd : State → State} {s t : State}
    (h : samplingStep atEnd s = .next t) :
    (s.cur.k.toNat < 8 ∧ s.cur.wait = false ∧ t = issueRead s) ∨
    (s.cur.k.toNat < 8 ∧ s.cur.wait = true ∧ ∃ r rest, s.inputs = .answer s.cur.pin r :: rest ∧
      t = deliverAnswer r { s with inputs := rest }) ∨
    (s.cur.k.toNat < 8 ∧ t = s) ∨ (s.cur.k.toNat = 8 ∧ t = atEnd s) := by
  unfold samplingStep at h
  split at h
  · rename_i hk
    split at h
    · rename_i hw
      cases h
      unfold awaitAnswer
      split
      · rename_i p r rest hin
        split
        · rename_i hp
          subst hp
          exact .inr (.inl ⟨hk, hw, r, rest, hin, rfl⟩)
        · exact .inr (.inr (.inl ⟨hk, rfl⟩))
      · exact .inr (.inr (.inl ⟨hk, rfl⟩))
    · rename_i hw
      cases h
      exact .inl ⟨hk, by simpa using hw, rfl⟩
  · split at h
    · rename_i hk
      cases h
      exact .inr (.inr (.inr ⟨hk, rfl⟩))
    · cases h

theorem acceptSampling_alive (o : Op) {s : State} (h : s.cur.torn = false) : acceptSampling o s =
    { s with cur := { s.cur with opR := o, acc := 0#8, k := 0#4, wait := false, phase := .sampling } } :=
  if_neg (by simp [h])

theorem acceptSampling_torn (o : Op) {s : State} (h : s.cur.torn = true) : acceptSampling o s = s :=
  if_pos h

theorem acceptLookup_alive (c : Code) {s : State} (h : s.cur.torn = false) : acceptLookup c s =
    { s with cur := { s.cur with opR := .lookup, codeR := c, phase := .decode } } :=
  if_neg (by simp [h])

theorem acceptLookup_torn (c : Code) {s : State} (h : s.cur.torn = true) : acceptLookup c s = s :=
  if_pos h

/-- What one micro-step of an instruction can do. -/
theorem exec_next {i : Instr} {s t : State} (h : exec i s = .next t) : Micro i s t := by
  cases hp : s.cur.phase with
  | idle =>
    cases htorn : s.cur.torn with
    | true =>
      cases i <;> simp only [exec, execRead, execReadAngle, execSample, execLookup, hp,
        acceptSampling_torn _ htorn, acceptLookup_torn _ htorn, Host.Outcome.next.injEq] at h <;>
        subst h <;> exact .stay
    | false =>
      cases i <;> simp only [exec, execRead, execReadAngle, execSample, execLookup, hp,
        acceptSampling_alive _ htorn, acceptLookup_alive _ htorn, Host.Outcome.next.injEq] at h <;>
        subst h
      case lookup c => exact .acceptLookup hp htorn
      case read => exact .acceptSampling (by simp) hp htorn
      case readAngle => exact .acceptSampling (by simp) hp htorn
      case sample => exact .acceptSampling (by simp) hp htorn
  | sampling =>
    cases i with
    | lookup c => simp only [exec, execLookup, hp, Host.Outcome.next.injEq] at h; subst h; exact .stay
    | read =>
      simp only [exec, execRead, hp] at h
      split at h
      · rename_i ho
        obtain ⟨hk, hw, rfl⟩ | ⟨hk, hw, r, rest, hin, rfl⟩ | ⟨hk, rfl⟩ | ⟨hk, rfl⟩ := samplingStep_next h
        · exact .issue (by simp) hp ho hk hw
        · exact .answer (by simp) hp ho hk hw hin
        · exact .stay
        · exact .endRead (.inl rfl) hp ho hk
      · cases h; exact .stay
    | readAngle =>
      simp only [exec, execReadAngle, hp] at h
      split at h
      · rename_i ho
        obtain ⟨hk, hw, rfl⟩ | ⟨hk, hw, r, rest, hin, rfl⟩ | ⟨hk, rfl⟩ | ⟨hk, rfl⟩ := samplingStep_next h
        · exact .issue (by simp) hp ho hk hw
        · exact .answer (by simp) hp ho hk hw hin
        · exact .stay
        · exact .endRead (.inr rfl) hp ho hk
      · cases h; exact .stay
    | sample =>
      simp only [exec, execSample, hp] at h
      split at h
      · rename_i ho
        obtain ⟨hk, hw, rfl⟩ | ⟨hk, hw, r, rest, hin, rfl⟩ | ⟨hk, rfl⟩ | ⟨hk, rfl⟩ := samplingStep_next h
        · exact .issue (by simp) hp ho hk hw
        · exact .answer (by simp) hp ho hk hw hin
        · exact .stay
        · exact .endSample hp ho hk
      · cases h; exact .stay
  | decode =>
    cases i with
    | sample => simp only [exec, execSample, hp, Host.Outcome.next.injEq] at h; subst h; exact .stay
    | read =>
      simp only [exec, execRead, hp] at h
      split at h <;> cases h
      · rename_i ho; exact .position (.inr rfl) hp ho
      · exact .stay
    | readAngle =>
      simp only [exec, execReadAngle, hp] at h
      split at h <;> cases h
      · rename_i ho; exact .angle hp ho
      · exact .stay
    | lookup c =>
      simp only [exec, execLookup, hp] at h
      split at h <;> cases h
      · rename_i ho; exact .position (.inl ⟨c, rfl, ho.2⟩) hp ho.1
      · exact .stay

/-- The instance's own move, inverted. -/
theorem ownMove_cases (s : State) :
    (ownMove s = .settle (.next s) ∧ s.cur.phase = .idle) ∨
    (∃ w rest, s.cur.phase = .idle ∧ s.cur.torn = false ∧ s.cur.req = w :: rest ∧
      ownMove s = .run (decode w) { s with cur := { s.cur with req := rest } }) ∨
    (s.cur.phase ≠ .idle ∧ ownMove s = .run s.cur.inProgress s) := by
  unfold ownMove
  split
  · rename_i hp
    split
    · exact .inl ⟨rfl, hp⟩
    · rename_i ht
      split
      · exact .inl ⟨rfl, hp⟩
      · rename_i w rest hr
        exact .inr (.inl ⟨w, rest, hp, by simpa using ht, hr, rfl⟩)
  · rename_i hp; exact .inr (.inr ⟨by simp [hp], rfl⟩)
  · rename_i hp; exact .inr (.inr ⟨by simp [hp], rfl⟩)

/-- What a step can be: a move of the environment, nothing, or a micro-step of an instruction `i` from a
state `u` that differs from `s` in the REQ channel and the environment's list at most. -/
inductive StepKind (s : State) : Host.Outcome State Fault Refusal → Prop where
  | refuse : StepKind s (.refused .unaskedAnswer)
  | idle (l) : s.inputs = l ∨ s.inputs = .tick :: l → StepKind s (.next { s with inputs := l })
  | accept (w rest l) : s.cur.phase = .idle → s.cur.torn = false → s.cur.req = w :: rest →
      s.inputs = l ∨ s.inputs = .tick :: l →
      StepKind s (exec (decode w) { s with cur := { s.cur with req := rest }, inputs := l })
  | proceed (l) : s.cur.phase ≠ .idle →
      s.inputs = l ∨ (s.inputs = .tick :: l ∧ s.cur.outstanding = false) →
      StepKind s (exec s.cur.inProgress { s with inputs := l })
  | reset (l) : s.inputs = .reset :: l → StepKind s (.next (resetInstance { s with inputs := l }))
  | offer (w l) : s.inputs = .offer w :: l →
      StepKind s (.next (offerRequest w { s with inputs := l }))
  | rotate (l) : s.inputs = .rotate :: l → StepKind s (.next (passTurn { s with inputs := l }))
  | teardown (l) : s.inputs = .teardown :: l → StepKind s (.next (tearDown { s with inputs := l }))
  | late (p r l) : s.inputs = .late p r :: l → p ∈ s.cur.stale →
      StepKind s (.next (discardLate p { s with inputs := l }))

theorem stepKind_ownMove {s : State} {l : List Input}
    (hl : s.inputs = l ∨ (s.inputs = .tick :: l ∧ s.cur.outstanding = false))
    {o : Host.Outcome State Fault Refusal}
    (ho : o = match ownMove { s with inputs := l } with | .settle o => o | .run i t => exec i t) :
    StepKind s o := by
  subst ho
  obtain ⟨h, -⟩ | ⟨w, rest, hp, ht, hr, h⟩ | ⟨hp, h⟩ := ownMove_cases { s with inputs := l }
  · rw [h]; exact .idle l (hl.imp_right And.left)
  · rw [h]; exact .accept w rest l hp ht hr (hl.imp_right And.left)
  · rw [h]; exact .proceed l hp hl

/-- Every step is of one of these kinds. -/
theorem step_kind (s : State) : StepKind s (step s) := by
  have own : ∀ l, (s.inputs = l ∨ (s.inputs = .tick :: l ∧ s.cur.outstanding = false)) →
      StepKind s (match ownMove { s with inputs := l } with | .settle o => o | .run i t => exec i t) :=
    fun l hl => stepKind_ownMove hl rfl
  have hself : ({ s with inputs := s.inputs } : State) = s := rfl
  unfold step nextAction
  split
  · rename_i o h
    revert h
    split <;> intro h
    · have := own _ (.inl rfl); rw [hself, h] at this; exact this
    · rename_i rest hin
      unfold tickMove at h
      split at h
      · cases h; try exact .idle rest (.inr hin)
      · rename_i ho
        have := own rest (.inr ⟨hin, by simpa using ho⟩)
        rw [h] at this
        exact this
    · unfold answerMove at h
      split at h
      · split at h
        · have := own _ (.inl rfl); rw [hself, h] at this; exact this
        · cases h; exact .refuse
      · split at h
        · have := own _ (.inl rfl); rw [hself, h] at this; exact this
        · cases h; exact .refuse
    · rename_i rest hin; cases h; exact .reset rest hin
    · rename_i w rest hin; cases h; exact .offer w rest hin
    · rename_i rest hin; cases h; exact .rotate rest hin
    · rename_i rest hin; cases h; exact .teardown rest hin
    · rename_i p r rest hin
      split at h <;> cases h
      · rename_i hp; exact .late p r rest hin hp
      · exact .refuse
  · rename_i i t h
    revert h
    split <;> intro h
    · have := own _ (.inl rfl); rw [hself, h] at this; exact this
    · rename_i rest hin
      unfold tickMove at h
      split at h
      · cases h; try exact .idle rest (.inr hin)
      · rename_i ho
        have := own rest (.inr ⟨hin, by simpa using ho⟩)
        rw [h] at this
        exact this
    · unfold answerMove at h
      split at h
      · split at h
        · have := own _ (.inl rfl); rw [hself, h] at this; exact this
        · cases h
      · split at h
        · have := own _ (.inl rfl); rw [hself, h] at this; exact this
        · cases h
    · cases h
    · cases h
    · cases h
    · cases h
    · split at h <;> cases h

end Sys2Proof.Machine
end

