-- ==== Sys2Proof/Laws/Run.lean ====
section
/-! SUPPORT. Runs of several steps: how they compose, and what a step is while an operation samples or
decodes. -/

namespace Sys2Proof.Machine

/-- A run starts with its first step. -/
theorem run_succ {s t : State} (h : step s = .next t) (n : Nat) : run (n + 1) s = run n t := by
  simp [run, h]

/-- Runs compose. -/
theorem run_add {s t : State} {m n : Nat} {o : Host.Outcome State Fault Refusal}
    (h : run m s = .next t) (h2 : run n t = o) : run (m + n) s = o := by
  induction m generalizing s with
  | zero => cases h; simpa using h2
  | succ m ih =>
    rw [show m + 1 + n = m + n + 1 by omega]
    simp only [run] at h ⊢
    cases hs : step s with
    | next u => rw [hs] at h; exact ih h
    | fault f => rw [hs] at h; cases h
    | refused f => rw [hs] at h; cases h

/-- A state that steps to itself stays for ever. -/
theorem run_stay {s : State} (h : step s = .next s) : ∀ n, run n s = .next s
  | 0 => rfl
  | n + 1 => by rw [run_succ h, run_stay h n]

/-- While its own operation samples, an instruction's micro-step is the sampler's. -/
theorem exec_sampling {i : Instr} {s : State} (hi : ∀ c, i ≠ .lookup c) (hp : s.cur.phase = .sampling)
    (ho : s.cur.opR = opOf i) :
    exec i s = samplingStep (if i = .sample then endToCode else endToDecode) s := by
  cases i with
  | lookup c => exact absurd rfl (hi c)
  | read => simp only [opOf] at ho; simp [exec, execRead, hp, ho]
  | readAngle => simp only [opOf] at ho; simp [exec, execReadAngle, hp, ho]
  | sample => simp only [opOf] at ho; simp [exec, execSample, hp, ho]

theorem inProgress_of_op {i : Instr} {d : Decoder} (hi : ∀ c, i ≠ .lookup c) (ho : d.opR = opOf i) :
    d.inProgress = i := by
  cases i with
  | lookup c => exact absurd rfl (hi c)
  | read => simp only [opOf] at ho; simp [Decoder.inProgress, ho]
  | readAngle => simp only [opOf] at ho; simp [Decoder.inProgress, ho]
  | sample => simp only [opOf] at ho; simp [Decoder.inProgress, ho]

/-- While an operation is in progress, a step with nothing due outside, or with an answer due that the
outstanding read, if there is one, asked for, is a micro-step of that operation. -/
theorem step_busy {s : State} (hp : s.cur.phase ≠ .idle)
    (hin : s.inputs = [] ∨ ∃ p r l, s.inputs = .answer p r :: l ∧
      (s.cur.outstanding = true → p = s.cur.pin)) :
    step s = exec s.cur.inProgress s := by
  have own : ownMove s = .run s.cur.inProgress s := by
    unfold ownMove
    split
    · contradiction
    · rfl
    · rfl
  obtain h | ⟨p, r, l, h, hpin⟩ := hin
  · simp [step, nextAction, h, own]
  · simp only [step, nextAction, h, answerMove]
    by_cases ho : s.cur.outstanding = true
    · simp [ho, hpin ho, own]
    · simp [ho, canMove, hp, own]

/-- The events of a list of answers depend on the instance's number and handles only. -/
theorem readEvents_congr {d e : Decoder} (hid : d.id = e.id) (hpins : d.pins = e.pins)
    (rs : List PinResult) (k : Nat) : readEvents d k rs = readEvents e k rs := by
  induction rs generalizing k with
  | nil => rfl
  | cons r rs ih => simp [readEvents, Decoder.line, hid, hpins, ih]

end Sys2Proof.Machine
end

