-- ==== Sys2Proof/Tests/Slice0.lean ====
section
/-! SUPPORT. The model's own tests. Expected values come from spec/95_test_vectors.md and the rules' own corner
cases and examples, not from the model. The second half shows, for each obligation with hypotheses, a concrete
state and operands that meet all of them. -/

namespace Sys2Proof.Machine.Tests

open Sys2Proof Sys2Proof.Machine

-- One declaration after another: the tests need no more threads, and so no more memory, than any other file.
set_option Elab.async false

/-! ### Helpers -/

/-- The next state, if there is one. -/
def after : Host.Outcome State Fault Refusal → Option State
  | .next s => some s
  | .fault _ => none
  | .refused _ => none

/-- The handles of the test instance, on the physical inputs 10 to 17. -/
def pins : Vector Nat 8 := #v[10, 11, 12, 13, 14, 15, 16, 17]

/-- A ROM with the two entries the spec gives (R103, R104 with ENTRY46 = 27); all other codes invalid. -/
def rom : Memory := [(0, 0x80#8), (46, 0x9B#8)]

/-- An instance in IDLE, with nothing waiting. -/
def demo : State where
  build := ⟨.ten, .zeroBased, .binary64, .lut⟩
  posRom := rom
  cur := Decoder.fresh 3 pins
  others := []
  hist := []
  inputs := []

/-- Sampling for `o`, index `k`, `acc` so far; `w` says whether a read is outstanding. -/
def sampling (o : Op) (k : BitVec 4) (acc : Code) (w : Bool) : State :=
  { demo with cur := { demo.cur with phase := .sampling, opR := o, k := k, acc := acc, wait := w } }

/-- In DECODE for `o`, with `c` in code_r. -/
def decoding (o : Op) (c : Code) : State :=
  { demo with cur := { demo.cur with phase := .decode, opR := o, codeR := c } }

/-- In IDLE, with the word `w` offered and the answers `rs` to come. -/
def ready (w : ReqWord) (rs : List PinResult) : State :=
  { demo with cur := { demo.cur with req := [w] }, inputs := answerInputs 0 rs }

/-- A whole table: a state that meets the machine's invariant. -/
def full : State := { demo with posRom := romImage (Config.assumedTable 27#7) }

/-- The levels that pack to code 46 (R104: 0b00101110). -/
def levels46 : Vector Bool 8 := #v[false, false, true, false, true, true, true, false]

/-- The levels that pack to code 254, which `rom` gives no position. -/
def levels254 : Vector Bool 8 := #v[true, true, true, true, true, true, true, false]

/-! ### Encoding: words written out bit by bit from R73 -/

theorem test_decode_read : decode 0b0000000000#10 = .read ∧ decode 0b0011111111#10 = .read := by decide

theorem test_decode_readAngle :
    decode 0b0100000000#10 = .readAngle ∧ decode 0b0110100101#10 = .readAngle := by decide

theorem test_decode_sample : decode 0b1000000000#10 = .sample ∧ decode 0b1011111111#10 = .sample := by decide

/-- R78: `LOOKUP c` is `0x300 | c`; code 46 is 0b00101110. -/
theorem test_decode_lookup : decode 0b1100101110#10 = .lookup 46#8 ∧
    decode 0b1111111111#10 = .lookup 255#8 ∧ encode (.lookup 46#8) = 0x32E#10 := by decide

/-- R70 has no other length: a number of eleven bits is refused by name. -/
theorem test_decode_too_wide : decodeBits 0x400 = .error .tooWide ∧ decodeTableWord 10 0x400 = none ∧
    decodeTableWord 10 0x3FF = some (.lookup 255#8) := by decide

/-! ### Ill-formed terms: each check refuses one -/

/-- LOOKUP draws no answer, seven are too few for READ, nine too many, and none follows an Err. -/
theorem test_ill_formed_lines (e : PinErr) :
    AsmLine.wellFormed ⟨.lookup 0#8, [.ok true]⟩ = false ∧
    AsmLine.wellFormed ⟨.read, List.replicate 7 (.ok true)⟩ = false ∧
    AsmLine.wellFormed ⟨.readAngle, List.replicate 9 (.ok true)⟩ = false ∧
    AsmLine.wellFormed ⟨.sample, [.err e, .ok true]⟩ = false ∧
    AsmLine.wellFormed ⟨.sample, [.ok true, .err e]⟩ = true := ⟨rfl, rfl, rfl, rfl, rfl⟩

/-- The ROM's canonical form: not unsorted, not a listed 0x00, not outside the 256 words. -/
theorem test_ill_formed_rom : Memory.wf [(46, 0x9B#8), (0, 0x80#8)] = false ∧
    Memory.wf [(1, 0x00#8)] = false ∧ Memory.wf [(256, 0x80#8)] = false ∧ Memory.wf rom = true := by
  decide

/-- R101: a table of no valid code is none. -/
theorem test_ill_formed_table_count : ¬ Config.TableOk fun _ => none :=
  fun h => absurd h.count (by decide +kernel)

/-- R102: no position has two codes. -/
theorem test_ill_formed_table_bijection :
    ¬ Config.TableOk fun c => if c = 1#8 then some 0#7 else Config.assumedTable 27#7 c :=
  fun h => absurd ((h.bijection 0#7).unique (y₁ := 0#8) (y₂ := 1#8) (by decide) (by decide)) (by decide)

/-- R103: code 0 is position 0. -/
theorem test_ill_formed_table_code0 :
    ¬ Config.TableOk fun c => Config.assumedTable 27#7 (c ^^^ 1#8) :=
  fun h => absurd h.code0 (by decide)

/-- R104: code 46 is position 27 or 37. -/
theorem test_ill_formed_table_code46 : ¬ Config.TableOk (Config.assumedTable 30#7) :=
  fun h => absurd h.code46 (by decide)

/-! ### Assembler lines (R78) -/

theorem test_parse_lookup (named : List Char → PinErr) :
    parseLine (some ∘ named) "LOOKUP 0x2E ; code 46".toList = some ⟨.lookup 46#8, []⟩ ∧
    parseLine (some ∘ named) "LOOKUP 255".toList = some ⟨.lookup 255#8, []⟩ ∧
    parseLine (some ∘ named) "lookup 0".toList = none := ⟨rfl, rfl, rfl⟩

/-- The first line of 95_test_vectors.md §3 P2, and the answers before the `;`: no word of a comment is read as an
answer. -/
theorem test_parse_pins (named : List Char → PinErr) :
    parseLine (some ∘ named) "READ          ; pins: 0 0 1 E(bus)        word 0x000".toList =
      some ⟨.read, [.ok false, .ok false, .ok true, .err (named "bus".toList)]⟩ ∧
    parseLine (some ∘ named) "READ pins: E(x) ; 1 failure".toList = some ⟨.read, [.err (named "x".toList)]⟩ ∧
    parseLine (some ∘ named) "READ ; pins: E(x) 1 failure".toList = some ⟨.read, [.err (named "x".toList)]⟩ ∧
    parseLine (some ∘ named) "READ pins: E(x) 1".toList = none := ⟨rfl, rfl, rfl, rfl⟩

/-! ### Operands -/

/-- 95_test_vectors.md §2.2. -/
theorem test_pack : pack levels254.toList = 254#8 ∧ pack levels46.toList = 46#8 ∧
    pack [true, false, false, false, false, false, false, false] = 0x80#8 ∧
    pack [true, false, true, false, true, false, true, false] = 0xAA#8 := by decide

/-- R105, R25: the word {1, pos} gives its position, 0x00 gives None. -/
theorem test_romRead : romRead rom 46#8 = some 27#7 ∧ romRead rom 0#8 = some 0#7 ∧
    romRead rom 254#8 = none := by decide

/-! ### Angles: bit patterns of 95_test_vectors.md §2.4 -/

theorem test_angles_zeroBased_binary64 :
    [0, 1, 3, 27, 37, 63, 92, 127].map (fun n => angleOf .binary64 .zeroBased (BitVec.ofNat 7 n)) =
      [.binary64 0x0000000000000000, .binary64 0x3FA954A49D7F2B6F, .binary64 0x3FC2FF7B761F6093,
       .binary64 0x3FF55F6AE4E34CA6, .binary64 0x3FFD49DE561B0A38, .binary64 0x4008EF520B092EC1,
       .binary64 0x401234D651336738, .binary64 0x401921FB54442D18] := by decide +kernel

theorem test_angles_centred_binary64 :
    [0, 1, 46, 63, 64, 65, 127].map (fun n => angleOf .binary64 .centred (BitVec.ofNat 7 n)) =
      [.binary64 0xC00921FB54442D18, .binary64 0xC008BCA8C1CE306A, .binary64 0xBFEBB4940C431780,
       .binary64 0xBF9954A49D7F2B80, .binary64 0x3F9954A49D7F2B80, .binary64 0x3FB2FF7B761F60A0,
       .binary64 0x400921FB54442D18] := by decide +kernel

theorem test_angles_zeroBased_binary32 :
    [0, 1, 27, 37, 64, 127].map (fun n => angleOf .binary32 .zeroBased (BitVec.ofNat 7 n)) =
      [.binary32 0x00000000, .binary32 0x3D4AA525, .binary32 0x3FAAFB57, .binary32 0x3FEA4EF3,
       .binary32 0x404AA525, .binary32 0x40C90FDB] := by decide +kernel

theorem test_angles_centred_binary32 :
    [0, 1, 63, 64, 90, 127].map (fun n => angleOf .binary32 .centred (BitVec.ofNat 7 n)) =
      [.binary32 0xC0490FDB, .binary32 0xC045E546, .binary32 0xBCCAA580, .binary32 0x3CCAA500,
       .binary32 0x3FA7D0C2, .binary32 0x40490FDB] := by decide +kernel

/-! ### Instructions, one micro-step each -/

/-- 95 §2.3: LOOKUP 46 responds PosSome(ENTRY46). -/
theorem test_lookup_46 :
    (after (exec (.lookup 46#8) (decoding .lookup 46#8))).map (·.cur.resp) = some [.posSome 27#7] := by
  decide +kernel

/-- R106: acceptance of LOOKUP does not write acc, k and wait. -/
theorem test_lookup_accept :
    (after (exec (.lookup 46#8) { demo with cur := { demo.cur with acc := 9#8, k := 5#4 } })).map
      (fun t => (t.cur.phase, t.cur.codeR, t.cur.acc, t.cur.k, t.cur.wait)) =
      some (.decode, 46#8, 9#8, 5#4, false) := by decide

/-- R54: read 7 is issued on the line that handle 7 is bound to. 95 §2.2: the acc trace 0, 0, 1, 2, 5, 11, 23, 46:
read 7 answers 0 at acc = 23. -/
theorem test_sample_last_level :
    (after (exec .sample (sampling .sample 7#4 23#8 false))).map (·.hist) = some [.pinRead 3 7 17] ∧
    (after (exec .sample { sampling .sample 7#4 23#8 true with inputs := [.answer 7 (.ok false)] })).map
      (fun t => (t.cur.acc, t.cur.k, t.cur.wait, t.cur.phase)) = some (46#8, 8#4, false, .sampling) := by
  decide

/-- 95 W1: Code(254) is the response, and phase returns to IDLE. -/
theorem test_sample_code :
    (after (exec .sample (sampling .sample 8#4 254#8 false))).map
      (fun t => (t.cur.resp, t.cur.phase)) = some ([.code 254#8], .idle) := by decide

/-- 95 §2.2: after `1 1 1 E(x)` the response is PinFail(x), k stays at the failing pin, and no code comes. -/
theorem test_read_fails (e : PinErr) :
    (after (exec .read { sampling .read 3#4 7#8 true with inputs := [.answer 3 (.err e)] })).map
      (fun t => (t.cur.resp, t.cur.phase, t.cur.k)) = some ([.pinFail e], .idle, 3#4) := rfl

/-- R140: a code with no entry gives PosNone. -/
theorem test_read_invalid :
    (after (exec .read (decoding .read 254#8))).map (·.cur.resp) = some [.posNone] := by decide +kernel

/-- 95 W7: READ_ANGLE at code 0 gives Angle(+0.0) under ZERO_BASED. -/
theorem test_readAngle_zero :
    (after (exec .readAngle (decoding .readAngle 0#8))).map (·.cur.resp) =
      some [.angle (.binary64 0x0000000000000000)] := by decide +kernel

/-- 95 W12: READ_ANGLE at an invalid code gives the fallback 10.0. -/
theorem test_readAngle_fallback :
    (after (exec .readAngle (decoding .readAngle 254#8))).map (·.cur.resp) =
      some [.angle (.binary64 0x4024000000000000)] := by decide +kernel

/-! ### Steps -/

/-- R76: the placed word is the next instruction, from reset. -/
theorem test_fetch_from_reset :
    (after (step (State.reset.withFetchWord 10 0x32E))).map
      (fun t => (t.cur.phase, t.cur.opR, t.cur.codeR)) = some (.decode, .lookup, 46#8) := rfl

/-- R205, R231: reset comes before the response that is about to be delivered, and delivers none. -/
theorem test_reset_abandons :
    (after (step { sampling .sample 8#4 254#8 false with inputs := [.reset] })).map
      (fun t => (t.cur.resp, t.cur.phase)) = some ([], .idle) := by decide

/-- R233: teardown during a read releases the pins and abandons nothing. -/
theorem test_teardown_busy :
    (after (step { sampling .sample 3#4 7#8 true with inputs := [.teardown] })).map
      (fun t => (t.cur.owned, t.cur.phase, t.cur.outstanding, t.cur.stale)) =
      some ([], .sampling, true, []) := by decide

/-- R76: LOOKUP 46, accepted before teardown, still responds PosSome(ENTRY46). -/
theorem test_teardown_lookup_responds :
    (after (run 2 { decoding .lookup 46#8 with inputs := [.teardown] })).map
      (fun t => (t.cur.resp, t.cur.phase, t.cur.torn)) = some ([.posSome 27#7], .idle, true) := by
  decide +kernel

/-- R56: at a tick nothing comes from outside, so an outstanding read waits for the answer behind it. -/
theorem test_tick_waits :
    (after (step { sampling .sample 7#4 23#8 true with inputs := [.tick, .answer 7 (.ok true)] })).map
      (fun t => (t.cur.acc, t.cur.wait, t.inputs)) = some (23#8, true, [.answer 7 (.ok true)]) := by decide

/-- R231: a read that reset abandoned is answered late, to no effect. -/
theorem test_late_answer :
    (after (step { demo with
      cur := { demo.cur with stale := [2] }, inputs := [.late 2 (.ok true)] })).map
      (fun t => (t.cur.acc, t.cur.resp, t.cur.stale, t.hist)) = some (0#8, [], [], []) := by decide

/-! ### Witnesses: concrete states and operands that meet the hypotheses of the obligations

PinErr may be any type, the empty one too (R8), so a payload is an argument of the witnesses that show a failure. -/

theorem test_witness_DecodeEncodeAgree :
    Instr.wellFormed .read = true ∧ Instr.wellFormed (.lookup 255#8) = true := by decide

theorem test_witness_IgnoredBitsChangeNothing :
    (reqOp 0x000#10 = reqOp 0x0FF#10 ∧ reqOp 0x000#10 ≠ 0b11#2) ∧
    (reqOp 0x300#10 = reqOp 0x3FF#10 ∧ reqOp 0x300#10 = 0b11#2) ∧
    (reqOp 0x3FF#10 = reqOp 0x3FF#10 ∧ decode 0x3FF#10 = decode 0x3FF#10) := by decide

theorem test_witness_PackIsBigEndian :
    ([] : List Bool).length ≤ 8 ∧ levels254.toList.length ≤ 8 := by decide

theorem test_witness_LookupIsAccepted : demo.cur.phase = .idle ∧ demo.cur.torn = false := by decide

theorem test_witness_SamplingOpsAreAccepted :
    (∀ c, Instr.read ≠ .lookup c) ∧ (∀ c, Instr.readAngle ≠ .lookup c) ∧
    (∀ c, Instr.sample ≠ .lookup c) ∧ demo.cur.phase = .idle ∧ demo.cur.torn = false :=
  ⟨nofun, nofun, nofun, rfl, rfl⟩

theorem test_witness_AcceptanceDecodesTheWord :
    ((ready 0x300#10 []).cur.phase = .idle ∧ (ready 0x300#10 []).cur.torn = false ∧
      (ready 0x300#10 []).cur.req = [0x300#10] ∧ (ready 0x300#10 []).inputs = []) ∧
    (0x300#10).extractLsb' 8 2 = 0b11#2 := by decide

theorem test_witness_SamplerMicroSteps (e : PinErr) :
    (∀ c, Instr.sample ≠ .lookup c) ∧
    ((sampling .sample 0#4 0#8 false).cur.phase = .sampling ∧
      (sampling .sample 0#4 0#8 false).cur.opR = opOf .sample ∧
      (sampling .sample 0#4 0#8 false).cur.k.toNat = (0 : Fin 8).val ∧
      (sampling .sample 0#4 0#8 false).cur.wait = false) ∧
    (sampling .sample 7#4 0#8 false).cur.k.toNat = (7 : Fin 8).val ∧
    (∃ s : State, s.cur.phase = .sampling ∧ s.cur.opR = opOf .sample ∧ s.cur.k.toNat = (7 : Fin 8).val ∧
      s.cur.wait = true ∧ s.inputs = [.answer 7 (.ok true)]) ∧
    (∃ s : State, s.cur.phase = .sampling ∧ s.cur.opR = opOf .sample ∧ s.cur.k.toNat = (7 : Fin 8).val ∧
      s.cur.wait = true ∧ s.inputs = [.answer 7 (.err e)]) ∧
    ∃ s : State, s.cur.phase = .sampling ∧ s.cur.opR = opOf .sample ∧ s.cur.k.toNat = (0 : Fin 8).val ∧
      s.cur.wait = true ∧ (7 : Pin) ≠ 0 ∧ s.inputs = [.answer 7 (.ok true)] :=
  ⟨nofun, by decide, by decide,
    ⟨{ sampling .sample 7#4 23#8 true with inputs := [.answer 7 (.ok true)] }, by decide⟩,
    ⟨{ sampling .sample 7#4 23#8 true with inputs := [.answer 7 (.err e)] },
      rfl, rfl, rfl, rfl, rfl⟩,
    { sampling .sample 0#4 0#8 true with inputs := [.answer 7 (.ok true)] }, by decide⟩

theorem test_witness_FailedReadRaisesPinFail (e : PinErr) :
    (∀ c, Instr.readAngle ≠ .lookup c) ∧ ∃ s : State, s.cur.phase = .sampling ∧
      s.cur.opR = opOf .readAngle ∧ s.cur.k.toNat = (0 : Fin 8).val ∧ s.cur.wait = true ∧
      s.inputs = [.answer 0 (.err e)] :=
  ⟨nofun, { sampling .readAngle 0#4 0#8 true with inputs := [.answer 0 (.err e)] },
    rfl, rfl, rfl, rfl, rfl⟩

theorem test_witness_SamplingEndsInDecode :
    ((sampling .read 8#4 46#8 false).cur.phase = .sampling ∧
      (sampling .read 8#4 46#8 false).cur.opR = opOf .read ∧
      (sampling .read 8#4 46#8 false).cur.k = 8#4) ∧
    (sampling .readAngle 8#4 46#8 false).cur.opR = opOf .readAngle := by decide

theorem test_witness_SampleRespondsTheCode :
    (sampling .sample 8#4 254#8 false).cur.phase = .sampling ∧
    (sampling .sample 8#4 254#8 false).cur.opR = .sample ∧
    (sampling .sample 8#4 254#8 false).cur.k = 8#4 := by decide

theorem test_witness_LookupRespondsTheEntry :
    (decoding .lookup 255#8).cur.phase = .decode ∧ (decoding .lookup 255#8).cur.opR = .lookup ∧
    (decoding .lookup 255#8).cur.codeR = 255#8 := by decide

theorem test_witness_ReadRespondsTheEntry :
    (decoding .read 46#8).cur.phase = .decode ∧ (decoding .read 46#8).cur.opR = .read := by decide

theorem test_witness_ReadAngleRespondsTheAngle :
    (decoding .readAngle 46#8).cur.phase = .decode ∧ (decoding .readAngle 46#8).cur.opR = .readAngle ∧
    romRead (decoding .readAngle 46#8).posRom (decoding .readAngle 46#8).cur.codeR = some 27#7 ∧
    romRead (decoding .readAngle 254#8).posRom (decoding .readAngle 254#8).cur.codeR = none := by
  decide

theorem ready_meets (w : ReqWord) (rs : List PinResult) : Ready (ready w rs) (decode w) [] rs :=
  ⟨rfl, rfl, ⟨w, rfl, rfl⟩, rfl⟩

theorem test_witness_MicroStepsRefineTheOperation :
    (Ready (ready 0x1A5#10 (levels46.toList.map .ok)) .readAngle [] (levels46.toList.map .ok) ∧
      pinsComplete (readsDue .readAngle) (levels46.toList.map .ok) = true) ∧
    (Ready (ready 0x300#10 []) (.lookup 0#8) [] [] ∧ pinsComplete (readsDue (.lookup 0#8)) [] = true) :=
  ⟨⟨ready_meets _ _, by decide⟩, ready_meets _ _, by decide⟩

theorem test_witness_LookupWhole : Ready (ready 0x32E#10 []) (.lookup 46#8) [] [] := ready_meets _ _

theorem test_witness_SampleWhole :
    Ready (ready 0x2FF#10 (levels254.toList.map .ok)) .sample [] (levels254.toList.map .ok) :=
  ready_meets _ _

theorem test_witness_ReadWhole :
    Ready (ready 0x000#10 (levels46.toList.map .ok)) .read [] (levels46.toList.map .ok) := ready_meets _ _

theorem test_witness_ReadAngleWhole :
    (Ready (ready 0x100#10 (levels46.toList.map .ok)) .readAngle [] (levels46.toList.map .ok) ∧
      romRead (ready 0x100#10 (levels46.toList.map .ok)).posRom (pack levels46.toList) = some 27#7) ∧
    (Ready (ready 0x100#10 (levels254.toList.map .ok)) .readAngle [] (levels254.toList.map .ok) ∧
      romRead (ready 0x100#10 (levels254.toList.map .ok)).posRom (pack levels254.toList) = none) :=
  ⟨⟨ready_meets _ _, by decide⟩, ready_meets _ _, by decide⟩

theorem test_witness_FirstFailureEndsTheOperation (e : PinErr) :
    (∀ c, Instr.sample ≠ .lookup c) ∧
    (([] : List Bool).length < 8 ∧ Ready (ready 0x200#10 [.err e]) .sample [] [.err e]) ∧
    ((List.replicate 7 true).length < 8 ∧
      Ready (ready 0x200#10 ((List.replicate 7 true).map .ok ++ [.err e])) .sample []
        ((List.replicate 7 true).map .ok ++ [.err e])) :=
  ⟨nofun, ⟨by decide, ready_meets _ _⟩, by decide, ready_meets _ _⟩

theorem sample_completes : Completes (ready 0x200#10 (levels46.toList.map .ok)) .sample []
    (levels46.toList.map .ok) (.code 46#8) [] :=
  ⟨_, rfl, rfl, rfl, rfl, rfl, rfl, rfl, rfl, rfl⟩

theorem sample_completes_fail (e : PinErr) :
    Completes (ready 0x200#10 [.err e]) .sample [] [.err e] (.pinFail e) [] :=
  ⟨_, rfl, rfl, rfl, rfl, rfl, rfl, rfl, rfl, rfl⟩

theorem lookup_completes :
    Completes (ready 0x32E#10 []) (.lookup 46#8) [] [] (.posSome 27#7) [.romRead 3 46#8] :=
  ⟨_, rfl, rfl, rfl, rfl, rfl, rfl, rfl, rfl, rfl⟩

theorem read_completes : Completes (ready 0x000#10 (levels46.toList.map .ok)) .read []
    (levels46.toList.map .ok) (.posSome 27#7) [.romRead 3 46#8] :=
  ⟨_, rfl, rfl, rfl, rfl, rfl, rfl, rfl, rfl, rfl⟩

theorem read_completes_none : Completes (ready 0x000#10 (levels254.toList.map .ok)) .read []
    (levels254.toList.map .ok) .posNone [.romRead 3 254#8] :=
  ⟨_, rfl, rfl, rfl, rfl, rfl, rfl, rfl, rfl, rfl⟩

theorem read_completes_fail (e : PinErr) :
    Completes (ready 0x000#10 [.err e]) .read [] [.err e] (.pinFail e) [] :=
  ⟨_, rfl, rfl, rfl, rfl, rfl, rfl, rfl, rfl, rfl⟩

theorem test_witness_ReadIsSampleThenLookup (e : PinErr) :
    (Ready (ready 0x200#10 (levels46.toList.map .ok)) .sample [] (levels46.toList.map .ok) ∧
      Ready (ready 0x000#10 (levels46.toList.map .ok)) .read [] (levels46.toList.map .ok) ∧
      pinsComplete 8 (levels46.toList.map .ok) = true ∧
      (ready 0x32E#10 []).posRom = (ready 0x000#10 (levels46.toList.map .ok)).posRom ∧
      Completes (ready 0x200#10 (levels46.toList.map .ok)) .sample [] (levels46.toList.map .ok)
        (.code 46#8) [] ∧
      Ready (ready 0x32E#10 []) (.lookup 46#8) [] [] ∧
      Completes (ready 0x32E#10 []) (.lookup 46#8) [] [] (.posSome 27#7) [.romRead 3 46#8]) ∧
    (Ready (ready 0x200#10 [.err e]) .sample [] [.err e] ∧
      Ready (ready 0x000#10 [.err e]) .read [] [.err e] ∧ pinsComplete 8 [.err e] = true ∧
      Completes (ready 0x200#10 [.err e]) .sample [] [.err e] (.pinFail e) []) :=
  ⟨⟨ready_meets _ _, ready_meets _ _, by decide, rfl, sample_completes, ready_meets _ _, lookup_completes⟩,
    ready_meets _ _, ready_meets _ _, rfl, sample_completes_fail e⟩

theorem test_witness_ReadAngleIsAMapOfRead (e : PinErr) :
    (Ready (ready 0x000#10 (levels46.toList.map .ok)) .read [] (levels46.toList.map .ok) ∧
      Ready (ready 0x100#10 (levels46.toList.map .ok)) .readAngle [] (levels46.toList.map .ok) ∧
      pinsComplete 8 (levels46.toList.map .ok) = true ∧
      Completes (ready 0x000#10 (levels46.toList.map .ok)) .read [] (levels46.toList.map .ok)
        (.posSome 27#7) [.romRead 3 46#8]) ∧
    (Ready (ready 0x100#10 (levels254.toList.map .ok)) .readAngle [] (levels254.toList.map .ok) ∧
      pinsComplete 8 (levels254.toList.map .ok) = true ∧
      Completes (ready 0x000#10 (levels254.toList.map .ok)) .read [] (levels254.toList.map .ok)
        .posNone [.romRead 3 254#8]) ∧
    (Ready (ready 0x100#10 [.err e]) .readAngle [] [.err e] ∧ pinsComplete 8 [.err e] = true ∧
      Completes (ready 0x000#10 [.err e]) .read [] [.err e] (.pinFail e) []) :=
  ⟨⟨ready_meets _ _, ready_meets _ _, by decide, read_completes⟩,
    ⟨ready_meets _ _, by decide, read_completes_none⟩, ready_meets _ _, rfl, read_completes_fail e⟩

/-- The second state differs in the registers, the responses and the history that an earlier operation left. -/
theorem test_witness_NoHiddenState :
    ∃ t : State, t.cur.acc ≠ (ready 0x000#10 (levels46.toList.map .ok)).cur.acc ∧ t.hist ≠ [] ∧
      Ready (ready 0x000#10 (levels46.toList.map .ok)) .read [] (levels46.toList.map .ok) ∧
      Ready t .read [] (levels46.toList.map .ok) ∧
      pinsComplete (readsDue .read) (levels46.toList.map .ok) = true ∧
      (ready 0x000#10 (levels46.toList.map .ok)).build = t.build ∧
      (ready 0x000#10 (levels46.toList.map .ok)).posRom = t.posRom ∧
      Completes (ready 0x000#10 (levels46.toList.map .ok)) .read [] (levels46.toList.map .ok)
        (.posSome 27#7) [.romRead 3 46#8] :=
  ⟨{ ready 0x0FF#10 (levels46.toList.map .ok) with
      cur := { (ready 0x0FF#10 (levels46.toList.map .ok)).cur with acc := 99#8, k := 3#4, codeR := 99#8 }
      hist := [.romRead 3 46#8] },
    by decide, nofun, ready_meets _ _, ⟨rfl, rfl, ⟨0x0FF#10, rfl, rfl⟩, rfl⟩, by decide, rfl, rfl,
    read_completes⟩

theorem test_witness_UnansweredReadWaitsForEver :
    (sampling .read 0#4 0#8 true).cur.phase = .sampling ∧ (sampling .read 0#4 0#8 true).cur.wait = true ∧
    (sampling .read 0#4 0#8 true).cur.k.toNat < 8 ∧ (sampling .read 7#4 0#8 true).cur.k.toNat < 8 ∧
    (sampling .read 0#4 0#8 true).inputs = [] := by decide

theorem test_witness_RunEndsWithTheLastResponse :
    (Ready (ready 0x000#10 (levels46.toList.map .ok)) .read [] (levels46.toList.map .ok) ∧
      pinsComplete (readsDue .read) (levels46.toList.map .ok) = true ∧
      ∀ d ∈ (ready 0x000#10 (levels46.toList.map .ok)).others, d.ended) ∧
    ((sampling .read 7#4 0#8 true).cur.outstanding = true ∧ (sampling .read 7#4 0#8 true).inputs = [] ∧
      run 1 (sampling .read 7#4 0#8 true) = .next (sampling .read 7#4 0#8 true)) ∧
    (∃ s : State, Input.offer 0x000#10 ∈ s.inputs) ∧
    (demo.ended ∧ demo.inputs = [] ∧ run 1 demo = .next demo) := by
  refine ⟨⟨ready_meets _ _, rfl, nofun⟩, ⟨rfl, rfl, rfl⟩,
    ⟨{ demo with inputs := [.offer 0x000#10] }, by simp⟩, ⟨nofun, ?_⟩, rfl, rfl⟩
  intro d hd
  have h : d = Decoder.fresh 3 pins := by simpa [State.instances, demo] using hd
  subst h
  exact ⟨rfl, rfl, rfl⟩

theorem sampling_inv (o : Op) (ho : o ≠ .lookup) (w : Bool) : (sampling o 0#4 0#8 w).cur.Inv :=
  ⟨by simp [sampling], by simp [sampling], fun _ => ⟨ho, by simp [sampling]⟩, nofun⟩

theorem test_witness_IndexFollowsTheReads (e : PinErr) :
    (∃ t : State, demo.cur.Inv ∧ exec .sample demo = .next t ∧ demo.cur.phase = .idle ∧
      t.cur.phase = .sampling) ∧
    (∃ s t : State, s.cur.Inv ∧ exec .sample s = .next t ∧ s.cur.inProgress = .sample ∧
      s.cur.outstanding = true ∧ s.inputs = [.answer s.cur.pin (.ok true)]) ∧
    ∃ s t : State, s.cur.Inv ∧ exec .sample s = .next t ∧ s.cur.inProgress = .sample ∧
      s.cur.outstanding = true ∧ s.inputs = [.answer s.cur.pin (.err e)] :=
  ⟨⟨_, ⟨by decide, nofun, nofun, nofun⟩, rfl, rfl, rfl⟩,
    ⟨{ sampling .sample 0#4 0#8 true with inputs := [.answer 0 (.ok true)] }, _,
      sampling_inv _ (by decide) _, rfl, rfl, rfl, rfl⟩,
    { sampling .sample 0#4 0#8 true with inputs := [.answer 0 (.err e)] }, _,
      sampling_inv _ (by decide) _, rfl, rfl, rfl, rfl⟩

theorem test_witness_ResponsesStayInTheirRow :
    exec (.lookup 46#8) (decoding .lookup 46#8) = .next (decodePosition (decoding .lookup 46#8)) ∧
    exec .readAngle (decoding .readAngle 0#8) = .next (decodeAngle (decoding .readAngle 0#8)) := ⟨rfl, rfl⟩

theorem test_witness_BusyInstanceLetsRequestsWait :
    ((decoding .lookup 46#8).cur.phase ≠ .idle ∧ (decoding .lookup 46#8).cur.inProgress ≠ .lookup 47#8 ∧
      (decoding .lookup 46#8).cur.inProgress ≠ .read) ∧
    ∃ s : State, s.inputs = [.offer 0x3FF#10] :=
  ⟨by decide, { demo with inputs := [.offer 0x3FF#10] }, rfl⟩

theorem test_witness_StepRunsTheDecodedRequest :
    ((ready 0x300#10 []).cur.phase = .idle ∧ (ready 0x300#10 []).cur.torn = false ∧
      (ready 0x300#10 []).cur.req = [0x300#10] ∧ (ready 0x300#10 []).inputs = []) ∧
    ({ ready 0x300#10 [] with inputs := [.tick] } : State).inputs = [.tick] ∧
    ((decoding .read 0#8).cur.phase ≠ .idle ∧ (decoding .read 0#8).inputs = [] ∧
      (decoding .read 0#8).cur.outstanding = false) ∧
    ((sampling .read 7#4 0#8 true).cur.outstanding = true ∧ (sampling .read 7#4 0#8 true).cur.pin = 7) ∧
    (1023 : Nat) < 1024 := by decide

theorem test_witness_ResetAbandonsTheOperation :
    (∃ s : State, s.inputs = [.reset] ∧ s.cur.outstanding = true) ∧
    ∃ s : State, s.inputs = [.late 2 (.ok true)] ∧ (2 : Pin) ∈ s.cur.stale :=
  ⟨⟨{ sampling .read 2#4 0#8 true with inputs := [.reset] }, by decide⟩,
    { demo with cur := { demo.cur with stale := [2] }, inputs := [.late 2 (.ok true)] }, by decide⟩

theorem test_witness_UnaskedAnswersHaveNoStep :
    (∃ s : State, s.inputs = [.answer 3 (.ok true)] ∧ s.cur.outstanding = true ∧ (3 : Pin) ≠ s.cur.pin) ∧
    (∃ s : State, s.inputs = [.answer 3 (.ok true)] ∧ s.cur.phase = .idle ∧ s.cur.req = []) ∧
    (∃ s : State, s.inputs = [.answer 3 (.ok true)] ∧ s.cur.phase = .idle ∧ s.cur.req = [0x000#10] ∧
      s.cur.torn = true) ∧
    ∃ s : State, s.inputs = [.late 3 (.ok true)] ∧ (3 : Pin) ∉ s.cur.stale :=
  ⟨⟨{ sampling .read 2#4 0#8 true with inputs := [.answer 3 (.ok true)] }, by decide⟩,
    ⟨{ demo with inputs := [.answer 3 (.ok true)] }, by decide⟩,
    ⟨{ demo with
      cur := { demo.cur with torn := true, req := [0x000#10] }, inputs := [.answer 3 (.ok true)] },
      by decide⟩,
    { demo with inputs := [.late 3 (.ok true)] }, by decide⟩

theorem test_witness_TornDownInstanceAcceptsNothing :
    (∃ s : State, s.cur.phase = .idle ∧ s.cur.torn = true ∧ s.cur.req = [0x000#10] ∧ s.inputs = []) ∧
    ∃ s : State, s.inputs = [.teardown] :=
  ⟨⟨{ demo with cur := { demo.cur with torn := true, req := [0x000#10] } }, by decide⟩,
    { demo with inputs := [.teardown] }, rfl⟩

theorem test_witness_TeardownReleasesThePins :
    (∃ s : State, s.inputs = [.teardown] ∧ s.cur.outstanding = true) ∧
    ((decoding .lookup 46#8).cur.phase ≠ .idle ∧
      exec (.lookup 46#8) (decoding .lookup 46#8) = .next (decodePosition (decoding .lookup 46#8))) ∧
    ((sampling .read 7#4 0#8 false).cur.phase ≠ .idle ∧
      (∀ rest, (sampling .read 7#4 0#8 false).inputs ≠ .rotate :: rest) ∧
      step (sampling .read 7#4 0#8 false) = .next (issueRead (sampling .read 7#4 0#8 false))) :=
  ⟨⟨{ sampling .read 7#4 0#8 true with inputs := [.teardown] }, by decide⟩,
    ⟨by decide, rfl⟩, by decide, nofun, rfl⟩

theorem test_witness_SamplingOpsFrame :
    (∀ c, Instr.read ≠ .lookup c) ∧
    exec .read (decoding .read 46#8) = .next (decodePosition (decoding .read 46#8)) := ⟨nofun, rfl⟩

theorem test_witness_LookupFrame :
    exec (.lookup 46#8) demo = .next (acceptLookup 46#8 demo) ∧
    exec (.lookup 46#8) (decoding .lookup 46#8) = .next (decodePosition (decoding .lookup 46#8)) :=
  ⟨rfl, rfl⟩

theorem test_witness_ConstantsNeverChange :
    (step demo = .next demo ∧ ∀ rest, demo.inputs ≠ .teardown :: rest) ∧
    ∃ s t : State, s.inputs = [.teardown] ∧ step s = .next t :=
  ⟨⟨rfl, nofun⟩, { demo with inputs := [.teardown] }, _, rfl, rfl⟩

theorem test_witness_RequestTransfersWhenValidAndReady :
    ((ready 0x300#10 []).inputs = [] ∧ reqValid (ready 0x300#10 []).cur = true ∧
      reqReady (ready 0x300#10 []).cur = true) ∧
    (demo.inputs = [] ∧ (reqValid demo.cur && reqReady demo.cur) = false ∧ step demo = .next demo) :=
  ⟨by decide, rfl, by decide, rfl⟩

theorem test_witness_OnePinReadAtATime : pinQ (sampling .sample 0#4 0#8 true).cur 0 = true ∧
    pinQ (sampling .sample 7#4 0#8 true).cur 7 = true := by decide

theorem full_rom : romRead (romImage (Config.assumedTable 27#7)) = Config.assumedTable 27#7 := by
  have h : ∀ c : Code, romRead (romImage (Config.assumedTable 27#7)) c = Config.assumedTable 27#7 c := by
    decide +kernel
  exact funext h

theorem full_instances : full.instances = [Decoder.fresh 3 pins] := rfl

theorem full_posRom : full.posRom = romImage (Config.assumedTable 27#7) := rfl

theorem full_inv : full.Inv where
  rom := by rw [full_posRom]; exact romImage_wf _
  table := by rw [full_posRom, full_rom]; exact Config.assumedTable_ok27
  each := by
    intro d hd
    rw [full_instances, List.mem_singleton] at hd
    subst hd
    exact ⟨by decide, nofun, nofun, nofun⟩
  numbers := by rw [full_instances]; decide
  exclusive := by rw [full_instances]; decide

theorem test_witness_StepKeepsTheInvariant : full.Inv ∧ step full = .next full := ⟨full_inv, rfl⟩

theorem test_witness_NoFaultExists : full.Inv := full_inv

theorem test_witness_InstancesDoNotInteract :
    ((∀ rest, demo.inputs ≠ .rotate :: rest) ∧ step demo = .next demo) ∧
    ∃ s : State, s.inputs = [.rotate] ∧ s.others = [Decoder.fresh 4 pins] :=
  ⟨⟨nofun, rfl⟩, { demo with inputs := [.rotate], others := [Decoder.fresh 4 pins] }, rfl, rfl⟩

theorem test_witness_PortsCarryTheChannels (e : PinErr) :
    (Response.answers .read (.posSome 127#7) = true ∧ Response.answers .sample (.code 255#8) = true ∧
      Response.answers .readAngle (.angle (.binary64 0#64)) = true ∧
      Response.answers .lookup .posNone = true ∧
      Response.answers .sample (.pinFail e) = true) ∧
    exec (.lookup 46#8) (decoding .lookup 46#8) = .next (decodePosition (decoding .lookup 46#8)) ∧
    (∃ s t : State, s.cur.outstanding = true ∧ s.inputs = [.answer s.cur.pin (.err e)] ∧
      step s = .next t ∧ t.hist = s.hist ++ [.pinAnswer 3 7 (.err e)]) ∧
    ∃ s : State, s.inputs = [.late 2 (.ok true)] ∧ (2 : Pin) ∈ s.cur.stale :=
  ⟨⟨rfl, rfl, rfl, rfl, rfl⟩, rfl,
    ⟨{ sampling .read 7#4 0#8 true with inputs := [.answer 7 (.err e)] }, _, rfl, rfl, rfl, rfl⟩,
    { demo with cur := { demo.cur with stale := [2] }, inputs := [.late 2 (.ok true)] }, by decide⟩

/-- Precision 2 at the power of two 2, where the spacing below is half of that above: 1.6 is nearest to 1.5, and
1.75, halfway between 1.5 and 2, goes to 2, whose significand is even. -/
theorem test_round_below_power_of_two : roundRat 2 false 8 5 0 = ⟨false, 3, -1⟩ ∧
    roundRat 2 false 7 4 0 = ⟨false, 2, 0⟩ := by decide

theorem test_witness_RoundingIsNearestEven : 2 ≤ 2 ∧ 0 < (7 : Nat) ∧ 0 < (4 : Nat) ∧
    2 ^ (2 - 1) ≤ 3 ∧ 3 < 2 ^ 2 ∧
    |(7 : ℚ) / 4 * 2 ^ (0 : ℤ) - 2 * 2 ^ (0 : ℤ)| = |(7 : ℚ) / 4 * 2 ^ (0 : ℤ) - 3 * 2 ^ (-1 : ℤ)| ∧
    (3 : ℚ) * 2 ^ (-1 : ℤ) ≠ 2 * 2 ^ (0 : ℤ) := by
  norm_num [abs_of_pos, abs_of_neg]

theorem test_witness_AngleRangeAndEndpoints : (0#7 : Pos) < 127#7 := by decide

end Sys2Proof.Machine.Tests
end

section
namespace Sys2Proof.Machine

/-! ### Payloads are opaque (R8, R10, R200)

`rename` commutes with every operation of the machine: each lemma moves the renaming from the argument of an
operation to its result, so that `simp` carries it through a step. -/

/-- A renaming of the payloads in the next action. -/
def Action.rename (f : PinErr → PinErr) : Action → Action
  | .settle o => .settle (renameOutcome f o)
  | .run i s => .run i (s.rename f)

section Rename

variable (f : PinErr → PinErr)

@[simp] theorem renameOutcome_next (s : State) : renameOutcome f (.next s) = .next (s.rename f) := rfl
@[simp] theorem renameOutcome_refused (x : Refusal) : renameOutcome f (.refused x) = .refused x := rfl

@[simp] theorem action_rename_settle (o : Host.Outcome State Fault Refusal) :
    (Action.settle o).rename f = .settle (renameOutcome f o) := rfl
@[simp] theorem action_rename_run (i : Instr) (s : State) :
    (Action.run i s).rename f = .run i (s.rename f) := rfl

/-! What a renamed decoder and a renamed machine show: everything but the payloads as before. -/

@[simp] theorem decoder_rename_phase (d : Decoder) : (d.rename f).phase = d.phase := rfl
@[simp] theorem decoder_rename_torn (d : Decoder) : (d.rename f).torn = d.torn := rfl
@[simp] theorem decoder_rename_wait (d : Decoder) : (d.rename f).wait = d.wait := rfl
@[simp] theorem decoder_rename_opR (d : Decoder) : (d.rename f).opR = d.opR := rfl
@[simp] theorem decoder_rename_k (d : Decoder) : (d.rename f).k = d.k := rfl
@[simp] theorem decoder_rename_codeR (d : Decoder) : (d.rename f).codeR = d.codeR := rfl
@[simp] theorem decoder_rename_req (d : Decoder) : (d.rename f).req = d.req := rfl
@[simp] theorem decoder_rename_pin (d : Decoder) : (d.rename f).pin = d.pin := rfl
@[simp] theorem decoder_rename_outstanding (d : Decoder) : (d.rename f).outstanding = d.outstanding := rfl
@[simp] theorem decoder_rename_inProgress (d : Decoder) : (d.rename f).inProgress = d.inProgress := rfl
@[simp] theorem canMove_rename (d : Decoder) : canMove (d.rename f) = canMove d := rfl

@[simp] theorem state_rename_cur (s : State) : (s.rename f).cur = s.cur.rename f := rfl
@[simp] theorem state_rename_inputs (s : State) :
    (s.rename f).inputs = s.inputs.map (·.rename f) := rfl
@[simp] theorem state_rename_others (s : State) :
    (s.rename f).others = s.others.map (·.rename f) := rfl

/-! The operations that the instructions share. -/

theorem log_rename (e : Event) (s : State) :
    (s.rename f).log (e.rename f) = (s.log e).rename f := by
  simp [State.log, State.rename]

theorem respond_rename (r : Response) (s : State) :
    respond (r.rename f) (s.rename f) = (respond r s).rename f := by
  simp [respond, State.rename, Decoder.rename]

@[simp] theorem acceptSampling_rename (o : Op) (s : State) :
    acceptSampling o (s.rename f) = (acceptSampling o s).rename f := by
  cases h : s.cur.torn with
  | true => rw [acceptSampling_torn o h, acceptSampling_torn o (by simpa using h)]
  | false => rw [acceptSampling_alive o h, acceptSampling_alive o (by simpa using h)]; rfl

@[simp] theorem acceptLookup_rename (c : Code) (s : State) :
    acceptLookup c (s.rename f) = (acceptLookup c s).rename f := by
  cases h : s.cur.torn with
  | true => rw [acceptLookup_torn c h, acceptLookup_torn c (by simpa using h)]
  | false => rw [acceptLookup_alive c h, acceptLookup_alive c (by simpa using h)]; rfl

@[simp] theorem issueRead_rename (s : State) : issueRead (s.rename f) = (issueRead s).rename f :=
  log_rename f (.pinRead s.cur.id s.cur.pin (s.cur.line s.cur.pin))
    { s with cur := { s.cur with wait := true } }

@[simp] theorem deliverAnswer_rename (r : PinResult) (s : State) :
    deliverAnswer (r.rename f) (s.rename f) = (deliverAnswer r s).rename f := by
  have hlog := log_rename f (.pinAnswer s.cur.id s.cur.pin r) { s with cur := { s.cur with wait := false } }
  cases r with
  | ok level => exact congrArg (takeLevel level) hlog
  | err e => exact (congrArg (raisePinReadFailure (f e)) hlog).trans (respond_rename f (.pinFail e) _)

@[simp] theorem awaitAnswer_rename (s : State) : awaitAnswer (s.rename f) = (awaitAnswer s).rename f := by
  unfold awaitAnswer
  rw [state_rename_inputs]
  cases s.inputs with
  | nil => rfl
  | cons i rest =>
    cases i with
    | answer p r =>
      have htake := deliverAnswer_rename f r { s with inputs := rest }
      exact (congrArg (if p = s.cur.pin then · else s.rename f) htake).trans
        (apply_ite (State.rename f) _ _ _).symm
    | _ => rfl

@[simp] theorem endToDecode_rename (s : State) : endToDecode (s.rename f) = (endToDecode s).rename f := rfl

@[simp] theorem endToCode_rename (s : State) : endToCode (s.rename f) = (endToCode s).rename f :=
  respond_rename f (.code s.cur.acc) s

theorem positionResponse_rename (o : Option Pos) : (positionResponse o).rename f = positionResponse o := by
  cases o <;> rfl

theorem angleAccesses_rename (n : Nat) (c : Code) (o : Option Pos) :
    (angleAccesses n c o).map (·.rename f) = angleAccesses n c o := by
  cases o <;> rfl

@[simp] theorem decodePosition_rename (s : State) :
    decodePosition (s.rename f) = (decodePosition s).rename f := by
  unfold decodePosition
  rw [← respond_rename, ← log_rename, positionResponse_rename]
  rfl

@[simp] theorem decodeAngle_rename (s : State) : decodeAngle (s.rename f) = (decodeAngle s).rename f := by
  unfold decodeAngle
  rw [← respond_rename]
  simp only [State.rename, List.map_append, angleAccesses_rename]
  rfl

/-- The sampler's micro-step commutes with a renaming, if what ends the sampling does. -/
theorem samplingStep_rename {atEnd : State → State} (hEnd : ∀ s, atEnd (s.rename f) = (atEnd s).rename f)
    (s : State) : samplingStep atEnd (s.rename f) = renameOutcome f (samplingStep atEnd s) := by
  simp only [samplingStep, state_rename_cur, decoder_rename_k, decoder_rename_wait, awaitAnswer_rename,
    issueRead_rename, hEnd]
  split_ifs <;> rfl

@[simp] theorem samplingStep_endToDecode_rename (s : State) :
    samplingStep endToDecode (s.rename f) = renameOutcome f (samplingStep endToDecode s) :=
  samplingStep_rename f (endToDecode_rename f) s

@[simp] theorem samplingStep_endToCode_rename (s : State) :
    samplingStep endToCode (s.rename f) = renameOutcome f (samplingStep endToCode s) :=
  samplingStep_rename f (endToCode_rename f) s

/-- No instruction looks into a payload. -/
theorem exec_rename (i : Instr) (s : State) : exec i (s.rename f) = renameOutcome f (exec i s) := by
  cases i with
  | read =>
    cases hp : s.cur.phase <;> simp [exec, execRead, hp, apply_ite (renameOutcome f)]
  | readAngle =>
    cases hp : s.cur.phase <;> simp [exec, execReadAngle, hp, apply_ite (renameOutcome f)]
  | sample =>
    cases hp : s.cur.phase <;> simp [exec, execSample, hp, apply_ite (renameOutcome f)]
  | lookup c =>
    cases hp : s.cur.phase <;> simp [exec, execLookup, hp, apply_ite (renameOutcome f)]

/-! What happens next. -/

theorem ownMove_rename (s : State) : ownMove (s.rename f) = (ownMove s).rename f := by
  cases hp : s.cur.phase with
  | idle =>
    cases ht : s.cur.torn with
    | true => simp [ownMove, hp, ht]
    | false =>
      cases hr : s.cur.req with
      | nil => simp [ownMove, hp, ht, hr]
      | cons w rest => simp [ownMove, hp, ht, hr]; rfl
  | sampling => simp [ownMove, hp]
  | decode => simp [ownMove, hp]

theorem tickMove_rename (s : State) : tickMove (s.rename f) = (tickMove s).rename f := by
  simp [tickMove, ownMove_rename, apply_ite (Action.rename f)]

theorem answerMove_rename (p : Pin) (s : State) :
    answerMove p (s.rename f) = (answerMove p s).rename f := by
  simp [answerMove, ownMove_rename, apply_ite (Action.rename f)]

@[simp] theorem passTurn_rename (s : State) : passTurn (s.rename f) = (passTurn s).rename f := by
  cases h : s.others with
  | nil => simp [passTurn, h]
  | cons d ds => simp [passTurn, h, State.rename]

/-- The choice of the next action looks at no payload. -/
theorem nextAction_rename (s : State) : nextAction (s.rename f) = (nextAction s).rename f := by
  unfold nextAction
  rw [state_rename_inputs]
  cases s.inputs with
  | nil => exact ownMove_rename f s
  | cons i rest =>
    cases i with
    | tick => exact tickMove_rename f { s with inputs := rest }
    | answer p r => exact answerMove_rename f p s
    | rotate => exact congrArg (Action.settle <| .next ·) (passTurn_rename f { s with inputs := rest })
    | late p r =>
      exact (apply_ite (Action.rename f) (p ∈ s.cur.stale)
        (.settle (.next (discardLate p { s with inputs := rest }))) (.settle (.refused .unaskedAnswer))).symm
    | offer w => rfl
    | reset => rfl
    | teardown => rfl

end Rename

/-- Settles O48: a renaming commutes with the choice of the next action and with every instruction. -/
theorem payloadsAreOpaque : Obligations.PayloadsAreOpaque := by
  intro f s
  unfold step
  rw [nextAction_rename]
  cases nextAction s with
  | settle o => rfl
  | run i t => exact exec_rename f i t

end Sys2Proof.Machine
end

section
namespace Sys2Proof.Machine

/-! ### Rounding is to nearest, ties to even (R11, R160)

`roundRat` scales the quotient into [2^(prec-1), 2^prec), takes the nearest whole number there, and scales back.
The whole number is within 1/2 of the scaled quotient; every other number with a significand of `prec` bits is,
at that scale, a whole number or below the interval. -/

/-! Scaling. -/

theorem scaleBy_den_pos (s : Int) (num : Nat) {den : Nat} (hd : 0 < den) : 0 < (scaleBy s num den).2 := by
  cases s with
  | ofNat n => exact hd
  | negSucc n => exact Nat.mul_pos hd (Nat.two_pow_pos _)

/-- `scaleBy` multiplies the quotient by 2^s. -/
theorem scaleBy_div (s : Int) (num den : Nat) :
    ((scaleBy s num den).1 : ℚ) / (scaleBy s num den).2 = (num : ℚ) / den * 2 ^ s := by
  cases s with
  | ofNat n => simp [scaleBy]; ring
  | negSucc n => simp [scaleBy, zpow_negSucc, div_eq_mul_inv]; ring

/-- A positive whole number lies between the powers of two of its binary logarithm. -/
theorem log2_bounds {n : Nat} (hn : 0 < n) :
    (2 : ℚ) ^ (n.log2 : ℤ) ≤ n ∧ (n : ℚ) < 2 ^ ((n.log2 : ℤ) + 1) := by
  constructor
  · exact_mod_cast Nat.log2_self_le hn.ne'
  · exact_mod_cast Nat.lt_log2_self (n := n)

/-- The first guess of `scaleFor`, the difference of the binary logarithms, is 1 too large at most. -/
theorem quotient_log2_bounds {num den : Nat} (hn : 0 < num) (hd : 0 < den) (p : ℤ) :
    (2 : ℚ) ^ (p - 1) ≤ (num : ℚ) / den * 2 ^ (p + den.log2 - num.log2) ∧
      (num : ℚ) / den * 2 ^ (p + den.log2 - num.log2) < 2 ^ (p + 1) := by
  obtain ⟨hn1, hn2⟩ := log2_bounds hn
  obtain ⟨hd1, hd2⟩ := log2_bounds hd
  have hd0 : (0 : ℚ) < den := by exact_mod_cast hd
  have hpow : (0 : ℚ) < 2 ^ (p + den.log2 - num.log2) := by positivity
  rw [div_mul_eq_mul_div, le_div_iff₀ hd0, div_lt_iff₀ hd0]
  constructor
  · calc (2 : ℚ) ^ (p - 1) * den ≤ 2 ^ (p - 1) * 2 ^ ((den.log2 : ℤ) + 1) := by gcongr
      _ = 2 ^ (num.log2 : ℤ) * 2 ^ (p + den.log2 - num.log2) := by
        rw [← zpow_add₀ two_ne_zero, ← zpow_add₀ two_ne_zero]; congr 1; ring
      _ ≤ num * 2 ^ (p + den.log2 - num.log2) := by gcongr
  · calc (num : ℚ) * 2 ^ (p + den.log2 - num.log2)
        < 2 ^ ((num.log2 : ℤ) + 1) * 2 ^ (p + den.log2 - num.log2) := by gcongr
      _ = 2 ^ (p + 1) * 2 ^ (den.log2 : ℤ) := by
        rw [← zpow_add₀ two_ne_zero, ← zpow_add₀ two_ne_zero]; congr 1; ring
      _ ≤ 2 ^ (p + 1) * den := by gcongr

/-- `scaleFor` brings the quotient into the interval from 2^(prec-1) to 2^prec. -/
theorem scaleFor_bounds (prec : Nat) {num den : Nat} (hn : 0 < num) (hd : 0 < den) :
    (2 : ℚ) ^ ((prec : ℤ) - 1) ≤ (num : ℚ) / den * 2 ^ scaleFor prec num den ∧
      (num : ℚ) / den * 2 ^ scaleFor prec num den < 2 ^ (prec : ℤ) := by
  obtain ⟨hlow, hhigh⟩ := quotient_log2_bounds hn hd prec
  have hscaled := scaleBy_div ((prec : ℤ) + den.log2 - num.log2) num den
  have hden := scaleBy_den_pos ((prec : ℤ) + den.log2 - num.log2) num hd
  set s : ℤ := (prec : ℤ) + den.log2 - num.log2 with hs
  have hden' : (0 : ℚ) < (scaleBy s num den).2 := by exact_mod_cast hden
  have hguard : 2 ^ prec * (scaleBy s num den).2 ≤ (scaleBy s num den).1 ↔
      (2 : ℚ) ^ (prec : ℤ) ≤ (num : ℚ) / den * 2 ^ s := by
    rw [← hscaled, le_div_iff₀ hden']
    exact_mod_cast Iff.rfl
  simp only [scaleFor, ← hs, hguard]
  split_ifs with h
  · rw [zpow_sub_one₀ two_ne_zero, zpow_sub_one₀ two_ne_zero]
    rw [zpow_add_one₀ two_ne_zero] at hhigh
    constructor <;> linarith
  · exact ⟨hlow, not_le.mp h⟩

/-! Rounding to a whole number. -/

/-- `divNearestEven` is within 1/2 of the quotient, and even if it is that far from it. -/
theorem divNearestEven_error (num : Nat) {den : Nat} (hd : 0 < den) :
    |(num : ℚ) / den - divNearestEven num den| ≤ 1 / 2 ∧
      (|(num : ℚ) / den - divNearestEven num den| = 1 / 2 → divNearestEven num den % 2 = 0) := by
  have hd0 : (0 : ℚ) < den := by exact_mod_cast hd
  have hquot : (num : ℚ) / den = (num / den : Nat) + (num % den : Nat) / (den : ℚ) := by
    rw [div_eq_iff hd0.ne', add_mul, div_mul_cancel₀ _ hd0.ne', mul_comm]
    exact_mod_cast (Nat.div_add_mod num den).symm
  rw [hquot]
  simp only [divNearestEven]
  have hr := Nat.mod_lt num hd
  generalize num / den = q
  generalize num % den = r at hr ⊢
  split_ifs with h
  · have hhalf : 1 / 2 ≤ (r : ℚ) / den := by
      rw [le_div_iff₀ hd0]
      have : (den : ℚ) ≤ 2 * r := by exact_mod_cast (by omega : den ≤ 2 * r)
      linarith
    have hone : (r : ℚ) / den < 1 := (div_lt_one hd0).mpr (by exact_mod_cast hr)
    have herr : |(q : ℚ) + r / den - (q + 1 : Nat)| = 1 - r / den := by
      rw [abs_of_nonpos (by push_cast; linarith)]; push_cast; ring
    rw [herr]
    refine ⟨by linarith, fun heq => ?_⟩
    have htie : (r : ℚ) / den = 1 / 2 := by linarith
    rw [div_eq_iff hd0.ne'] at htie
    have : 2 * r = den := by exact_mod_cast (by linarith : (2 : ℚ) * r = den)
    omega
  · have hhalf : (r : ℚ) / den ≤ 1 / 2 := by
      rw [div_le_iff₀ hd0]
      have : 2 * (r : ℚ) ≤ den := by exact_mod_cast (by omega : 2 * r ≤ den)
      linarith
    have herr : |(q : ℚ) + r / den - q| = r / den := by
      rw [add_sub_cancel_left, abs_of_nonneg (by positivity)]
    rw [herr]
    refine ⟨hhalf, fun htie => ?_⟩
    rw [div_eq_iff hd0.ne'] at htie
    have : 2 * r = den := by exact_mod_cast (by linarith : (2 : ℚ) * r = den)
    omega

/-- A whole number within 1/2 of a quantity is nearest to it; another one that is equally near is 1/2 away too. -/
theorem nearest_of_error_le_half {v : ℚ} {d : ℤ} (hd : |v - d| ≤ 1 / 2) (n : ℤ) :
    |v - d| ≤ |v - n| ∧ (|v - d| = |v - n| → n ≠ d → |v - d| = 1 / 2) := by
  by_cases hn : n = d
  · exact ⟨by rw [hn], fun _ h => absurd hn h⟩
  · have hgap : (1 : ℚ) ≤ |(n : ℚ) - d| := by exact_mod_cast Int.one_le_abs (sub_ne_zero.mpr hn)
    have htri := abs_sub_le (n : ℚ) v d
    rw [abs_sub_comm (n : ℚ) v] at htri
    exact ⟨by linarith, fun h _ => by linarith⟩

/-- A whole number within 1/2 of a quantity lies between the whole numbers that the quantity lies between. -/
theorem mem_bounds_of_error_le_half {v : ℚ} {d a b : ℤ} (hd : |v - d| ≤ 1 / 2) (ha : (a : ℚ) ≤ v)
    (hb : v ≤ b) : a ≤ d ∧ d ≤ b := by
  obtain ⟨h1, h2⟩ := abs_le.mp hd
  refine ⟨Int.le_of_lt_add_one ?_, Int.le_of_lt_add_one ?_⟩
  · exact_mod_cast (by linarith : (a : ℚ) < d + 1)
  · exact_mod_cast (by linarith : (d : ℚ) < b + 1)

/-! The rounded number. -/

/-- The quotient at the scale of `roundRat`, where the unit in the last place is 1. -/
def scaledQuotient (prec num den : Nat) : ℚ := (num : ℚ) / den * 2 ^ scaleFor prec num den

/-- The whole number that `roundRat` takes for the scaled quotient. -/
def scaledRound (prec num den : Nat) : Nat :=
  divNearestEven (scaleBy (scaleFor prec num den) num den).1 (scaleBy (scaleFor prec num den) num den).2

/-- `roundRat` gives the rounded whole number, halved where it has reached 2^prec. -/
theorem roundRat_eq (prec : Nat) (neg : Bool) {num : Nat} (den : Nat) (e : Int) (hn : 0 < num) :
    roundRat prec neg num den e =
      if scaledRound prec num den = 2 ^ prec then
        ⟨neg, 2 ^ (prec - 1), e - scaleFor prec num den + 1⟩
      else ⟨neg, scaledRound prec num den, e - scaleFor prec num den⟩ :=
  if_neg hn.ne'

section Scaled

variable {prec num den : Nat} (hp : 2 ≤ prec) (hn : 0 < num) (hd : 0 < den)
include hn hd

theorem scaledQuotient_bounds :
    (2 : ℚ) ^ ((prec : ℤ) - 1) ≤ scaledQuotient prec num den ∧
      scaledQuotient prec num den < 2 ^ (prec : ℤ) :=
  scaleFor_bounds prec hn hd

omit hn in
theorem scaledRound_error :
    |scaledQuotient prec num den - scaledRound prec num den| ≤ 1 / 2 ∧
      (|scaledQuotient prec num den - scaledRound prec num den| = 1 / 2 →
        scaledRound prec num den % 2 = 0) := by
  unfold scaledQuotient scaledRound
  rw [← scaleBy_div]
  exact divNearestEven_error _ (scaleBy_den_pos _ num hd)

include hp

theorem scaledRound_bounds :
    2 ^ (prec - 1) ≤ scaledRound prec num den ∧ scaledRound prec num den ≤ 2 ^ prec := by
  obtain ⟨hlow, hhigh⟩ := scaledQuotient_bounds (prec := prec) hn hd
  rw [← Int.natCast_pred_of_pos (by omega)] at hlow
  have := mem_bounds_of_error_le_half (d := scaledRound prec num den) (a := 2 ^ (prec - 1)) (b := 2 ^ prec)
    (by exact_mod_cast (scaledRound_error hd).1) (by exact_mod_cast hlow) (by exact_mod_cast hhigh.le)
  exact_mod_cast this

/-- At the scale of `roundRat` no number with a significand of `prec` bits is nearer than the rounded whole
number, and another that is equally near is 1/2 away: such a number is whole, or it is below 2^(prec-1). -/
theorem scaledRound_nearest {m : Nat} (hm : m < 2 ^ prec) (j : Int) :
    |scaledQuotient prec num den - scaledRound prec num den| ≤ |scaledQuotient prec num den - m * 2 ^ j| ∧
      (|scaledQuotient prec num den - scaledRound prec num den| = |scaledQuotient prec num den - m * 2 ^ j| →
        (m : ℚ) * 2 ^ j ≠ scaledRound prec num den →
        |scaledQuotient prec num den - scaledRound prec num den| = 1 / 2) := by
  have hnear := nearest_of_error_le_half (v := scaledQuotient prec num den)
    (d := scaledRound prec num den) (by exact_mod_cast (scaledRound_error hd).1)
  cases j with
  | ofNat n =>
    have hwhole : (m : ℚ) * 2 ^ (Int.ofNat n) = ((m * 2 ^ n : ℤ) : ℚ) := by simp
    rw [hwhole]
    refine ⟨(hnear _).1, fun htie hne => (hnear _).2 htie fun h => hne ?_⟩
    exact_mod_cast congrArg (Int.cast (R := ℚ)) h
  | negSucc n =>
    have hbelow : (m : ℚ) * 2 ^ (Int.negSucc n) < 2 ^ (prec - 1) := by
      rw [zpow_negSucc, ← div_eq_mul_inv, div_lt_iff₀ (by positivity)]
      calc (m : ℚ) < 2 ^ prec := by exact_mod_cast hm
        _ = 2 ^ (prec - 1) * 2 ^ 1 := by rw [← pow_add, Nat.sub_add_cancel (by omega)]
        _ ≤ 2 ^ (prec - 1) * 2 ^ (n + 1) := by gcongr <;> simp
    have hlow : (2 : ℚ) ^ (prec - 1) ≤ scaledQuotient prec num den := by
      have h := (scaledQuotient_bounds (prec := prec) hn hd).1
      rw [← Int.natCast_pred_of_pos (by omega)] at h
      exact_mod_cast h
    have hedge := (hnear (2 ^ (prec - 1))).1
    push_cast at hedge
    rw [abs_of_nonneg (sub_nonneg.mpr hlow)] at hedge
    rw [abs_of_nonneg (a := _ - (m : ℚ) * _) (by linarith)]
    exact ⟨by linarith, fun _ _ => by linarith⟩

/-- What `roundRat` answers: the sign, a normalised significand, a unit in the last place that is at least that of
the scaled quotient, the rounded whole number scaled back, and an even significand where that number is even. -/
theorem roundRat_spec (neg : Bool) (e : Int) :
    let x := roundRat prec neg num den e
    x.neg = neg ∧ (2 ^ (prec - 1) ≤ x.man ∧ x.man < 2 ^ prec) ∧ e - scaleFor prec num den ≤ x.exp ∧
      (x.man : ℚ) * 2 ^ x.exp = scaledRound prec num den * 2 ^ (e - scaleFor prec num den) ∧
      (scaledRound prec num den % 2 = 0 → x.man % 2 = 0) := by
  obtain ⟨hlow, hhigh⟩ := scaledRound_bounds hp hn hd
  have htwice : 2 ^ (prec - 1) * 2 = 2 ^ prec := Nat.two_pow_pred_mul_two (by omega)
  rw [roundRat_eq prec neg den e hn]
  split_ifs with hcarry
  · refine ⟨rfl, ⟨le_rfl, Nat.pow_lt_pow_right one_lt_two (by omega)⟩, by simp, ?_, fun _ => ?_⟩
    · rw [hcarry, ← htwice, zpow_add_one₀ two_ne_zero]
      push_cast
      ring
    · exact Nat.mod_eq_zero_of_dvd (dvd_pow_self 2 (by omega))
  · exact ⟨rfl, ⟨hlow, lt_of_le_of_ne hhigh hcarry⟩, le_rfl, rfl, id⟩

end Scaled

/-- A distance from the exact value is, scaled back, the distance from the scaled quotient. -/
theorem exact_sub_eq (prec num den : Nat) (e : Int) (y : ℚ) :
    |(num : ℚ) / den * 2 ^ e - y * 2 ^ (e - scaleFor prec num den)| =
      |scaledQuotient prec num den - y| * 2 ^ (e - scaleFor prec num den) := by
  have hexact : (num : ℚ) / den * 2 ^ e =
      scaledQuotient prec num den * 2 ^ (e - scaleFor prec num den) := by
    rw [scaledQuotient, mul_assoc, ← zpow_add₀ two_ne_zero, add_sub_cancel]
  rw [hexact, ← sub_mul, abs_mul, abs_of_pos (a := (2 : ℚ) ^ _) (by positivity)]

/-- Settles O54: at the scale of `roundRat` the claim is `scaledRound_nearest` with `scaledRound_error`. -/
theorem roundingIsNearestEven : Obligations.RoundingIsNearestEven := by
  intro prec neg num den e hp hn hd x exact error
  obtain ⟨hneg, ⟨hlow, hhigh⟩, hexp, hvalue, heven⟩ := roundRat_spec hp hn hd neg e
  obtain ⟨hhalf, htie⟩ := scaledRound_error (prec := prec) (num := num) hd
  set u : ℤ := e - scaleFor prec num den with hu
  have herror : error = |scaledQuotient prec num den - scaledRound prec num den| * 2 ^ u := by
    simp only [error, x, hvalue, exact, exact_sub_eq, hu]
  have hpos : (0 : ℚ) < 2 ^ u := by positivity
  refine ⟨hneg, hlow, hhigh, ?_, fun m e' _ hm => ?_⟩
  · calc error ≤ 1 / 2 * 2 ^ u := by rw [herror]; gcongr
      _ = 2 ^ (u - 1) := by rw [zpow_sub_one₀ two_ne_zero]; ring
      _ ≤ 2 ^ (x.exp - 1) := zpow_le_zpow_right₀ one_le_two (sub_le_sub_right hexp 1)
  · have hother : (m : ℚ) * 2 ^ e' = m * 2 ^ (e' - u) * 2 ^ u := by
      rw [mul_assoc, ← zpow_add₀ two_ne_zero, sub_add_cancel]
    obtain ⟨hnear, hequal⟩ := scaledRound_nearest hp hn hd hm (e' - u)
    rw [hother, exact_sub_eq, herror, hvalue]
    refine ⟨mul_le_mul_of_nonneg_right hnear hpos.le, fun heq hne => heven (htie (hequal ?_ ?_))⟩
    · exact mul_right_cancel₀ hpos.ne' heq
    · exact fun h => hne (by rw [h])

end Sys2Proof.Machine
end

section
namespace Sys2Proof.Machine

/-! ### The answer step (R121), field by field -/

@[simp] theorem deliverAnswer_hist (r : PinResult) (s : State) :
    (deliverAnswer r s).hist = s.hist ++ [.pinAnswer s.cur.id s.cur.pin r] := by cases r <;> rfl
@[simp] theorem deliverAnswer_inputs (r : PinResult) (s : State) : (deliverAnswer r s).inputs = s.inputs := by
  cases r <;> rfl
@[simp] theorem deliverAnswer_ok_cur (level : Bool) (s : State) : (deliverAnswer (.ok level) s).cur =
    { s.cur with wait := false, acc := packStep s.cur.acc level, k := s.cur.k + 1#4 } := rfl
@[simp] theorem deliverAnswer_err_cur (e : PinErr) (s : State) : (deliverAnswer (.err e) s).cur =
    { s.cur with wait := false, phase := .idle, resp := s.cur.resp ++ [.pinFail e] } := rfl

/-! ### What a micro-step leaves as it was (R24, R25, R53, R62)

No micro-step writes the configuration, the ROM, another decoder, or the number, handles, release, REQ channel and
abandoned reads of its own. -/

/-- `t` agrees with `s` on the constants of the build and of the decoder whose turn it is, and on the other
instances. -/
structure ConstantFrame (s t : State) : Prop where
  build : t.build = s.build
  posRom : t.posRom = s.posRom
  others : t.others = s.others
  id : t.cur.id = s.cur.id
  pins : t.cur.pins = s.cur.pins
  torn : t.cur.torn = s.cur.torn

/-- `t` agrees with `s` on everything that no micro-step writes. -/
structure MicroFrame (s t : State) : Prop extends ConstantFrame s t where
  req : t.cur.req = s.cur.req
  stale : t.cur.stale = s.cur.stale

theorem MicroFrame.refl (s : State) : MicroFrame s s := ⟨⟨rfl, rfl, rfl, rfl, rfl, rfl⟩, rfl, rfl⟩

theorem MicroFrame.trans {s t u : State} (h : MicroFrame s t) (h' : MicroFrame t u) : MicroFrame s u where
  build := h'.build.trans h.build
  posRom := h'.posRom.trans h.posRom
  others := h'.others.trans h.others
  id := h'.id.trans h.id
  pins := h'.pins.trans h.pins
  torn := h'.torn.trans h.torn
  req := h'.req.trans h.req
  stale := h'.stale.trans h.stale

theorem Micro.frame {i : Instr} {s t : State} (h : Micro i s t) : MicroFrame s t := by
  cases h with
  | @answer _ _ r => cases r <;> exact ⟨⟨rfl, rfl, rfl, rfl, rfl, rfl⟩, rfl, rfl⟩
  | _ => exact ⟨⟨rfl, rfl, rfl, rfl, rfl, rfl⟩, rfl, rfl⟩

theorem exec_frame {i : Instr} {s t : State} (h : exec i s = .next t) : MicroFrame s t := (exec_next h).frame

/-! ### The invariant of one decoder (R22, R27, R54, R124) -/

theorem opOf_ne_lookup {i : Instr} (hi : ∀ c, i ≠ .lookup c) : opOf i ≠ .lookup := by
  cases i with
  | lookup c => exact absurd rfl (hi c)
  | _ => exact nofun

/-- The packer takes in one more bit (R121, R124). -/
theorem packStep_lt {acc : Code} {k : Nat} (h : acc.toNat < 2 ^ k) (level : Bool) :
    (packStep acc level).toNat < 2 ^ (k + 1) := by
  unfold packStep
  rw [BitVec.toNat_or]
  refine Nat.or_lt_two_pow ?_ ?_
  · have := Nat.mod_le (acc.toNat * 2) (2 ^ 8)
    rw [BitVec.toNat_shiftLeft, Nat.shiftLeft_eq, pow_one]
    omega
  · cases level <;> simp

theorem index_succ {k : BitVec 4} (h : k.toNat < 8) : (k + 1#4).toNat = k.toNat + 1 := by
  rw [BitVec.toNat_add]
  simp
  omega

/-- A read is outstanding only with a pin left to read, while sampling. -/
theorem Decoder.Inv.wait_eq_false {d : Decoder} (h : d.Inv) (hd : d.phase ≠ .sampling ∨ 8 ≤ d.k.toNat) :
    d.wait = false := by
  by_contra hw
  obtain ⟨hp, hk⟩ := h.waiting (by simpa using hw)
  exact hd.elim (· hp) (by omega)

/-- A decoder in IDLE with no read outstanding meets its invariant if its index is in range. -/
theorem Decoder.inv_of_idle {d : Decoder} (hp : d.phase = .idle) (hk : d.k.toNat ≤ 8) (hw : d.wait = false) :
    d.Inv := ⟨hk, by simp [hw], by simp [hp], by simp [hp]⟩

theorem Decoder.inv_of_decode {d : Decoder} (ho : d.opR ≠ .sample) (hp : d.phase = .decode)
    (hk : d.k.toNat ≤ 8) (hw : d.wait = false) : d.Inv :=
  ⟨hk, by simp [hw], by simp [hp], fun _ => ho⟩

/-- Every micro-step keeps the decoder's invariant. -/
theorem Micro.inv {i : Instr} {s t : State} (h : Micro i s t) (hs : s.cur.Inv) : t.cur.Inv := by
  cases h with
  | stay => exact hs
  | acceptLookup hp =>
    exact Decoder.inv_of_decode nofun rfl hs.index (hs.wait_eq_false (by simp [hp]))
  | acceptSampling hi =>
    exact ⟨by simp, by simp, fun _ => ⟨opOf_ne_lookup hi, by simp⟩, by simp⟩
  | issue hi hp ho hk => exact ⟨hs.index, fun _ => ⟨hp, hk⟩, hs.sampling, hs.decoding⟩
  | @answer _ _ r _ hi hp ho hk =>
    cases r with
    | ok level =>
      obtain ⟨hop, hacc⟩ := hs.sampling hp
      exact ⟨by simp only [deliverAnswer_ok_cur, index_succ hk]; omega, by simp,
        fun _ => ⟨hop, by simpa [index_succ hk] using packStep_lt hacc level⟩, by simp [hp]⟩
    | err e => exact Decoder.inv_of_idle rfl hs.index rfl
  | endSample hp ho hk => exact Decoder.inv_of_idle rfl hs.index (hs.wait_eq_false (by simp [hk]))
  | endRead hi hp ho hk =>
    refine Decoder.inv_of_decode ?_ rfl hs.index (hs.wait_eq_false (by simp [hk]))
    obtain rfl | rfl := hi <;> simp [ho, opOf]
  | position hi hp => exact Decoder.inv_of_idle rfl hs.index (hs.wait_eq_false (by simp [hp]))
  | angle hp => exact Decoder.inv_of_idle rfl hs.index (hs.wait_eq_false (by simp [hp]))

/-! ### The invariant of the machine (R101 to R104, R215, R232) -/

theorem passTurn_instances (s : State) : (passTurn s).instances.Perm s.instances := by
  unfold passTurn State.instances
  split
  · exact .refl _
  · rename_i d ds h
    rw [h]
    exact (List.perm_append_singleton s.cur (d :: ds))

/-- The machine's invariant looks at the instances in no order. -/
theorem State.Inv.of_perm {s t : State} (hs : s.Inv) (hrom : t.posRom = s.posRom)
    (h : t.instances.Perm s.instances) : t.Inv where
  rom := hrom ▸ hs.rom
  table := hrom ▸ hs.table
  each d hd := hs.each d (h.mem_iff.mp hd)
  numbers := (h.map _).nodup_iff.mpr hs.numbers
  exclusive := (h.flatMap_right _).nodup_iff.mpr hs.exclusive

/-- The machine's invariant is kept if only the decoder whose turn it is changes, but for its number and its
handles, and meets its own invariant. -/
theorem State.Inv.of_cur {s t : State} (hs : s.Inv) (hrom : t.posRom = s.posRom) (hothers : t.others = s.others)
    (hid : t.cur.id = s.cur.id) (hpins : t.cur.pins = s.cur.pins) (hcur : t.cur.Inv) : t.Inv where
  rom := hrom ▸ hs.rom
  table := hrom ▸ hs.table
  each d hd := by
    obtain rfl | hd := List.mem_cons.mp hd
    · exact hcur
    · exact hs.each d (List.mem_cons_of_mem _ (hothers ▸ hd))
  numbers := by simpa [State.instances, hothers, hid] using hs.numbers
  exclusive := by simpa [State.instances, hothers, hpins] using hs.exclusive

theorem State.Inv.cur {s : State} (hs : s.Inv) : s.cur.Inv := hs.each _ (List.mem_cons_self ..)

theorem Micro.state_inv {i : Instr} {s t : State} (h : Micro i s t) (hs : s.Inv) : t.Inv :=
  hs.of_cur h.frame.posRom h.frame.others h.frame.id h.frame.pins (h.inv hs.cur)

theorem Decoder.inv_abandon (d : Decoder) : d.abandon.Inv := inv_of_idle rfl (by simp) rfl

/-- The invariant looks at the sequencer's registers only. -/
theorem Decoder.Inv.congr {d e : Decoder} (h : d.Inv) (hk : e.k = d.k) (hw : e.wait = d.wait)
    (hp : e.phase = d.phase) (ho : e.opR = d.opR) (hacc : e.acc = d.acc) : e.Inv where
  index := hk ▸ h.index
  waiting := by rw [hw, hp, hk]; exact h.waiting
  sampling := by rw [hp, ho, hacc, hk]; exact h.sampling
  decoding := by rw [hp, ho]; exact h.decoding

/-- What waits and what is due outside does not matter to the invariant. -/
theorem State.Inv.of_channels {s : State} (hs : s.Inv) (q : List ReqWord) (l : List Input) :
    State.Inv { s with cur := { s.cur with req := q }, inputs := l } :=
  hs.of_cur rfl rfl rfl rfl (hs.cur.congr rfl rfl rfl rfl rfl)

/-- Whatever a step is, the state that it answers meets the invariant. -/
theorem StepKind.inv {s t : State} {o : Host.Outcome State Fault Refusal} (h : StepKind s o) (hs : s.Inv)
    (ho : o = .next t) : t.Inv := by
  cases h with
  | refuse => cases ho
  | idle l => cases ho; exact hs.of_channels s.cur.req l
  | accept w q l => exact (exec_next ho).state_inv (hs.of_channels q l)
  | proceed l => exact (exec_next ho).state_inv (hs.of_channels s.cur.req l)
  | reset l => cases ho; exact hs.of_cur rfl rfl rfl rfl s.cur.inv_abandon
  | offer w l => cases ho; exact hs.of_cur rfl rfl rfl rfl (hs.cur.congr rfl rfl rfl rfl rfl)
  | rotate l => cases ho; exact (hs.of_channels s.cur.req l).of_perm (by simp) (passTurn_instances _)
  | teardown l => cases ho; exact hs.of_cur rfl rfl rfl rfl (hs.cur.congr rfl rfl rfl rfl rfl)
  | late p r l => cases ho; exact hs.of_cur rfl rfl rfl rfl (hs.cur.congr rfl rfl rfl rfl rfl)

/-- Settles O44: each kind of step keeps the invariant. -/
theorem stepKeepsTheInvariant : Obligations.StepKeepsTheInvariant :=
  fun s _ hs h => (step_kind s).inv hs h

end Sys2Proof.Machine
end

section
namespace Sys2Proof.Machine

/-! ### What a micro-step of an instruction is, by phase (R27) -/

/-! Acceptance (R75, R106). -/

theorem exec_lookup_idle {c : Code} {s : State} (hp : s.cur.phase = .idle) :
    exec (.lookup c) s = .next (acceptLookup c s) := by
  simp [exec, execLookup, hp]

theorem exec_idle {i : Instr} {s : State} (hi : ∀ c, i ≠ .lookup c) (hp : s.cur.phase = .idle) :
    exec i s = .next (acceptSampling (opOf i) s) := by
  cases i with
  | lookup c => exact absurd rfl (hi c)
  | read => simp [exec, execRead, hp, opOf]
  | readAngle => simp [exec, execReadAngle, hp, opOf]
  | sample => simp [exec, execSample, hp, opOf]

/-- In IDLE every instruction has a micro-step. -/
theorem exec_idle_next (i : Instr) {s : State} (hp : s.cur.phase = .idle) : ∃ t, exec i s = .next t := by
  cases i with
  | lookup c => exact ⟨_, exec_lookup_idle hp⟩
  | _ => exact ⟨_, exec_idle nofun hp⟩

/-- Settles O11: acceptance of LOOKUP c, at a decoder that is not torn down. -/
theorem lookupIsAccepted : Obligations.LookupIsAccepted := by
  intro c s hp ht
  rw [exec_lookup_idle hp, acceptLookup_alive c ht]

/-- Settles O12: acceptance of an instruction that samples, at a decoder that is not torn down. -/
theorem samplingOpsAreAccepted : Obligations.SamplingOpsAreAccepted := by
  intro i s hi hp ht
  rw [exec_idle hi hp, acceptSampling_alive _ ht]

/-! The sampler (R121, R123). -/

section Sampling

variable {i : Instr} {s : State}

theorem exec_issue (hi : ∀ c, i ≠ .lookup c) (hp : s.cur.phase = .sampling) (ho : s.cur.opR = opOf i)
    (hk : s.cur.k.toNat < 8) (hw : s.cur.wait = false) : exec i s = .next (issueRead s) := by
  simp [exec_sampling hi hp ho, samplingStep, hk, hw]

theorem exec_answer {r : PinResult} {rest : List Input} (hi : ∀ c, i ≠ .lookup c)
    (hp : s.cur.phase = .sampling) (ho : s.cur.opR = opOf i) (hk : s.cur.k.toNat < 8)
    (hw : s.cur.wait = true) (hin : s.inputs = .answer s.cur.pin r :: rest) :
    exec i s = .next (deliverAnswer r { s with inputs := rest }) := by
  simp [exec_sampling hi hp ho, samplingStep, awaitAnswer, hk, hw, hin]

theorem exec_endToDecode (hi : i = .read ∨ i = .readAngle) (hp : s.cur.phase = .sampling)
    (ho : s.cur.opR = opOf i) (hk : s.cur.k.toNat = 8) : exec i s = .next (endToDecode s) := by
  have hi' : ∀ c, i ≠ .lookup c := by obtain rfl | rfl := hi <;> exact nofun
  have hne : i ≠ .sample := by obtain rfl | rfl := hi <;> exact nofun
  simp [exec_sampling hi' hp ho, samplingStep, hk, hne]

theorem exec_endToCode (hp : s.cur.phase = .sampling) (ho : s.cur.opR = .sample) (hk : s.cur.k.toNat = 8) :
    exec .sample s = .next (endToCode s) := by
  simp [exec_sampling (i := .sample) nofun hp ho, samplingStep, hk]

end Sampling

/-- Settles O16: the end of sampling for READ and READ_ANGLE. -/
theorem samplingEndsInDecode : Obligations.SamplingEndsInDecode :=
  fun _ _ hi hp ho hk => exec_endToDecode hi hp ho (by simp [hk])

/-- Settles O17: the end of sampling for SAMPLE. -/
theorem sampleRespondsTheCode : Obligations.SampleRespondsTheCode :=
  fun _ hp ho hk => exec_endToCode hp ho (by simp [hk])

/-! DECODE (R106, R140, R165). -/

theorem exec_lookup_decode {s : State} (hp : s.cur.phase = .decode) (ho : s.cur.opR = .lookup) :
    exec (.lookup s.cur.codeR) s = .next (decodePosition s) := by
  simp [exec, execLookup, hp, ho]

theorem exec_read_decode {s : State} (hp : s.cur.phase = .decode) (ho : s.cur.opR = .read) :
    exec .read s = .next (decodePosition s) := by
  simp [exec, execRead, hp, ho]

theorem exec_readAngle_decode {s : State} (hp : s.cur.phase = .decode) (ho : s.cur.opR = .readAngle) :
    exec .readAngle s = .next (decodeAngle s) := by
  simp [exec, execReadAngle, hp, ho]

/-- Settles O18: LOOKUP's DECODE step. -/
theorem lookupRespondsTheEntry : Obligations.LookupRespondsTheEntry := by
  rintro _ s hp ho rfl
  exact exec_lookup_decode hp ho

/-- Settles O19: READ's DECODE step. -/
theorem readRespondsTheEntry : Obligations.ReadRespondsTheEntry := fun _ => exec_read_decode

/-- The angle unit delivers AngleOf(p), however it is built (R26, R167). -/
theorem angleUnit_eq_angleOf (b : Build) (p : Pos) : angleUnit b p = angleOf b.fmt b.conv p := by
  unfold angleUnit
  cases b.unit with
  | multiplier => rfl
  | lut =>
    have hp : p.toNat < 128 := p.isLt
    simp [angleRom, List.getD_eq_getElem?_getD, hp]

/-- Settles O20: READ_ANGLE's DECODE step, for a valid and for an invalid code. -/
theorem readAngleRespondsTheAngle : Obligations.ReadAngleRespondsTheAngle := by
  intro s hp ho
  have hstep := exec_readAngle_decode hp ho
  constructor
  · intro p hrom
    rw [hstep, ← angleUnit_eq_angleOf]
    simp [decodeAngle, respond, hrom, angleFor, angleAccesses]
  · intro hrom
    rw [hstep]
    simp [decodeAngle, respond, hrom, angleFor, angleAccesses]

/-! ### The index (R22) -/

theorem opOf_inProgress (d : Decoder) : opOf d.inProgress = d.opR := by
  cases h : d.opR <;> simp [Decoder.inProgress, opOf, h]

theorem outstanding_iff (d : Decoder) :
    d.outstanding = true ↔ d.phase = .sampling ∧ d.wait = true ∧ d.k.toNat < 8 := by
  simp [Decoder.outstanding, and_assoc]

/-- Under the invariant, the answer to the outstanding read is taken by a micro-step of the operation in
progress (R121). -/
theorem exec_inProgress_answer {s : State} {r : PinResult} {rest : List Input} (hs : s.cur.Inv)
    (hout : s.cur.outstanding = true) (hin : s.inputs = .answer s.cur.pin r :: rest) :
    exec s.cur.inProgress s = .next (deliverAnswer r { s with inputs := rest }) := by
  obtain ⟨hp, hw, hk⟩ := (outstanding_iff _).mp hout
  have hop := opOf_inProgress s.cur
  refine exec_answer (fun c hc => (hs.sampling hp).1 ?_) hp hop.symm hk hw hin
  rw [← hop, hc, opOf]

/-- A micro-step that begins no sampling and takes no level leaves the index. -/
theorem Micro.index {i : Instr} {s t : State} (h : Micro i s t) :
    t.cur.k = s.cur.k ∨ (s.cur.phase = .idle ∧ t.cur.phase = .sampling) ∨
      (s.cur.outstanding = true ∧ ∃ b rest, s.inputs = .answer s.cur.pin (.ok b) :: rest) := by
  cases h with
  | acceptSampling hi hp => exact .inr (.inl ⟨hp, rfl⟩)
  | @answer _ _ r rest hi hp ho hk hw hin =>
    cases r with
    | ok b => exact .inr (.inr ⟨(outstanding_iff _).mpr ⟨hp, hw, hk⟩, b, rest, hin⟩)
    | err e => exact .inl rfl
  | _ => exact .inl rfl

theorem Micro.index_of_accept {i : Instr} {s t : State} (h : Micro i s t) (hs : s.cur.phase = .idle)
    (ht : t.cur.phase = .sampling) : t.cur.k = 0#4 := by
  cases h with
  | acceptSampling => rfl
  | stay => simp [hs] at ht
  | acceptLookup => simp at ht
  | _ => simp_all

/-- Settles O32: the index, by the micro-steps; the answer to the outstanding read has one outcome. -/
theorem indexFollowsTheReads : Obligations.IndexFollowsTheReads := by
  intro i s t hs h
  have hm := exec_next h
  refine ⟨(hm.inv hs).index, hm.index_of_accept, ?_, ?_, hm.index⟩
  · rintro b rest rfl hout hin
    rw [exec_inProgress_answer hs hout hin] at h
    cases h
    exact index_succ ((outstanding_iff _).mp hout).2.2
  · rintro e rest rfl hout hin
    rw [exec_inProgress_answer hs hout hin] at h
    cases h
    exact ⟨rfl, rfl⟩

/-! ### The constants of the build (R24, R25, R233) -/

/-- What the instances have in common with those before, if only the one whose turn it is changes. -/
theorem instances_map_eq {α : Type} {s t : State} (f : Decoder → α) (hothers : t.others = s.others)
    (hcur : f t.cur = f s.cur) : t.instances.map f = s.instances.map f := by
  simp [State.instances, hothers, hcur]

theorem ConstantFrame.of_channels {s t : State} {q : List ReqWord} {l : List Input}
    (h : ConstantFrame { s with cur := { s.cur with req := q }, inputs := l } t) : ConstantFrame s t :=
  ⟨h.build, h.posRom, h.others, h.id, h.pins, h.torn⟩

/-- A step passes the turn, tears the decoder down, or leaves all constants and the other decoders. -/
theorem StepKind.constants {s t : State} {o : Host.Outcome State Fault Refusal} (h : StepKind s o)
    (ho : o = .next t) : (∃ l, t = passTurn { s with inputs := l }) ∨
    (∃ l, s.inputs = .teardown :: l ∧ t = tearDown { s with inputs := l }) ∨ ConstantFrame s t := by
  cases h with
  | refuse => cases ho
  | rotate l => cases ho; exact .inl ⟨l, rfl⟩
  | teardown l hin => cases ho; exact .inr (.inl ⟨l, hin, rfl⟩)
  | accept w q l => exact .inr (.inr (exec_frame ho).toConstantFrame.of_channels)
  | proceed l => exact .inr (.inr ((exec_frame ho).toConstantFrame.of_channels (q := s.cur.req)))
  | _ => cases ho; exact .inr (.inr ⟨rfl, rfl, rfl, rfl, rfl, rfl⟩)

theorem step_teardown {s : State} {rest : List Input} (hin : s.inputs = .teardown :: rest) :
    step s = .next (tearDown { s with inputs := rest }) := by
  simp [step, nextAction, hin]

/-- Settles O43: the three kinds of step that matter to the constants. -/
theorem constantsNeverChange : Obligations.ConstantsNeverChange := by
  intro s t h
  have hteardown : ∀ rest, s.inputs = .teardown :: rest →
      t.cur.torn = true ∧ t.cur.owned = [] ∧ t.others = s.others := by
    intro rest hin
    rw [step_teardown hin] at h
    cases h
    exact ⟨rfl, owned_of_torn rfl, rfl⟩
  obtain ⟨l, rfl⟩ | ⟨l, hin, rfl⟩ | hf := (step_kind s).constants h
  · have hperm := passTurn_instances { s with inputs := l }
    exact ⟨by simp, by simp, hperm.map _, fun _ => hperm.map _, hteardown⟩
  · exact ⟨rfl, rfl, .refl _, fun hne => absurd hin (hne l), hteardown⟩
  · exact ⟨hf.build, hf.posRom,
      .of_eq (instances_map_eq (fun d => (d.id, d.pins)) hf.others (by simp [hf.id, hf.pins])),
      fun _ => .of_eq (instances_map_eq (fun d => (d.id, d.torn)) hf.others (by simp [hf.id, hf.torn])),
      hteardown⟩

/-! ### The REQ channel (R30, R76) -/

/-- In IDLE the oldest request is accepted: with nothing due outside, or with an answer due, which cannot come
before its read. -/
theorem step_accept {s : State} {w : ReqWord} {rest : List ReqWord} (hp : s.cur.phase = .idle)
    (ht : s.cur.torn = false) (hr : s.cur.req = w :: rest)
    (hin : s.inputs = [] ∨ ∃ p r l, s.inputs = .answer p r :: l) :
    step s = exec (decode w) { s with cur := { s.cur with req := rest } } := by
  have own : ownMove s = .run (decode w) { s with cur := { s.cur with req := rest } } := by
    simp [ownMove, hp, ht, hr]
  obtain hin | ⟨p, r, l, hin⟩ := hin
  · simp [step, nextAction, hin, own]
  · have hout : s.cur.outstanding = false := by simp [Decoder.outstanding, hp]
    simp [step, nextAction, hin, answerMove, hout, canMove, hp, ht, hr, own]

theorem reqReady_iff (d : Decoder) : reqReady d = true ↔ d.phase = .idle := by
  simp [reqReady]

theorem reqValid_iff (d : Decoder) : reqValid d = true ↔ d.torn = false ∧ d.req = reqWord d :: d.req.tail := by
  cases hr : d.req with
  | nil => simp [reqValid, hr]
  | cons w rest => cases ht : d.torn <;> simp [reqWord, reqValid, hr, ht]

/-- With nothing due outside, only the acceptance of a request, valid and ready, writes the REQ channel. -/
theorem StepKind.req {s t : State} {o : Host.Outcome State Fault Refusal} (h : StepKind s o)
    (ho : o = .next t) (hin : s.inputs = []) (hno : (reqValid s.cur && reqReady s.cur) = false) :
    t.cur.req = s.cur.req := by
  cases h with
  | refuse => cases ho
  | idle => cases ho; rfl
  | accept w q l hp ht hr => simp [reqValid, reqReady, hp, ht, hr] at hno
  | proceed => exact (exec_frame ho).req
  | reset => cases ho; rfl
  | late => cases ho; rfl
  | teardown => cases ho; rfl
  | offer w l h => simp [hin] at h
  | rotate l h => simp [hin] at h

/-- Settles O50: a transfer is `step_accept`, and no other step writes the channel. -/
theorem requestTransfersWhenValidAndReady : Obligations.RequestTransfersWhenValidAndReady := by
  refine ⟨reqReady_iff, fun s hin hv hr => ?_, fun s t hin hno h => (step_kind s).req h hin hno⟩
  have hp := (reqReady_iff _).mp hr
  obtain ⟨ht, hreq⟩ := (reqValid_iff _).mp hv
  have hstep := step_accept hp ht hreq (.inl hin)
  obtain ⟨t, hnext⟩ := exec_idle_next (decode (reqWord s.cur))
    (s := { s with cur := { s.cur with req := s.cur.req.tail } }) hp
  exact ⟨hstep, t, hstep.trans hnext, (exec_frame hnext).req⟩

end Sys2Proof.Machine
end

section
namespace Sys2Proof.Machine

/-! ### A whole operation is its micro-steps, one after another (R27, R28)

A run in which the decoder whose turn it is takes micro-steps only is composed of shorter ones: the acceptance,
two micro-steps for each read (R121), and what remains after the eighth level (R123). -/

/-- `n` steps, all of them micro-steps, take `s` to `t` and record `evs`. -/
structure Progress (n : Nat) (s t : State) (evs : List Event) : Prop where
  run : run n s = .next t
  frame : MicroFrame s t
  hist : t.hist = s.hist ++ evs

/-- A run of micro-steps that ends in IDLE, with the response `r` delivered and nothing left due outside. -/
structure Delivers (n : Nat) (s t : State) (r : Response) (evs : List Event) : Prop extends
    Progress n s t evs where
  idle : t.cur.phase = .idle
  resp : t.cur.resp = s.cur.resp ++ [r]
  inputs : t.inputs = []

theorem Progress.refl (s : State) : Progress 0 s s [] := ⟨rfl, .refl s, by simp⟩

theorem Progress.trans {m n : Nat} {s t u : State} {evs evs' : List Event} (h : Progress m s t evs)
    (h' : Progress n t u evs') : Progress (m + n) s u (evs ++ evs') where
  run := run_add h.run h'.run
  frame := h.frame.trans h'.frame
  hist := by rw [h'.hist, h.hist, List.append_assoc]

theorem Progress.delivers {m n : Nat} {s t u : State} {r : Response} {evs evs' : List Event}
    (h : Progress m s t evs) (hresp : t.cur.resp = s.cur.resp) (h' : Delivers n t u r evs') :
    Delivers (m + n) s u r (evs ++ evs') :=
  ⟨h.trans h'.toProgress, h'.idle, hresp ▸ h'.resp, h'.inputs⟩

/-- One micro-step of the operation in progress, with nothing due outside but an answer it asked for. -/
theorem progress_busy {s t : State} {evs : List Event} (hp : s.cur.phase ≠ .idle)
    (hin : s.inputs = [] ∨ ∃ p r l, s.inputs = .answer p r :: l ∧ (s.cur.outstanding = true → p = s.cur.pin))
    (h : exec s.cur.inProgress s = .next t) (hhist : t.hist = s.hist ++ evs) : Progress 1 s t evs :=
  ⟨run_succ ((step_busy hp hin).trans h) 0, exec_frame h, hhist⟩

/-! The sampler's reads. -/

/-- The decoder samples for `i`, with no read outstanding. -/
structure Samples (i : Instr) (s : State) : Prop where
  phase : s.cur.phase = .sampling
  op : s.cur.opR = opOf i
  wait : s.cur.wait = false

/-- Where the rest of the sampling, `n` steps from `s`, leads: to a full accumulator or to the response of a failed
read, as `sampleAll` says. -/
def SamplingRun (i : Instr) (n : Nat) (s : State) (evs : List Event) : Option (Except PinErr Code) → Prop
  | some (.ok c) => ∃ t, Progress n s t evs ∧ Samples i t ∧ t.cur.k.toNat = 8 ∧ t.cur.acc = c ∧
      t.cur.resp = s.cur.resp ∧ t.inputs = []
  | some (.error e) => ∃ t, Delivers n s t (.pinFail e) evs
  | none => False

theorem Progress.samplingRun {i : Instr} {m n : Nat} {s t : State} {evs evs' : List Event}
    {o : Option (Except PinErr Code)} (h : Progress m s t evs) (hresp : t.cur.resp = s.cur.resp)
    (h' : SamplingRun i n t evs' o) : SamplingRun i (m + n) s (evs ++ evs') o := by
  match o, h' with
  | some (.ok c), ⟨u, hprog, hs, hk, hacc, hr, hin⟩ =>
    exact ⟨u, h.trans hprog, hs, hk, hacc, hr.trans hresp, hin⟩
  | some (.error e), ⟨u, hdel⟩ => exact ⟨u, h.delivers hresp hdel⟩

/-- The two micro-steps of a read: it is issued and answered. -/
theorem progress_read {i : Instr} {s : State} {r : PinResult} {rest : List Input} (hi : ∀ c, i ≠ .lookup c)
    (hs : Samples i s) (hk : s.cur.k.toNat < 8) (hin : s.inputs = .answer s.cur.pin r :: rest) :
    Progress 2 s (deliverAnswer r { issueRead s with inputs := rest })
      [.pinRead s.cur.id s.cur.pin (s.cur.line s.cur.pin), .pinAnswer s.cur.id s.cur.pin r] := by
  have hbusy : s.cur.phase ≠ .idle := by simp [hs.phase]
  have issue : Progress 1 s (issueRead s) [.pinRead s.cur.id s.cur.pin (s.cur.line s.cur.pin)] := by
    refine progress_busy hbusy (.inr ⟨_, r, rest, hin, fun _ => rfl⟩) ?_ rfl
    rw [inProgress_of_op hi hs.op]
    exact exec_issue hi hs.phase hs.op hk hs.wait
  have answer : Progress 1 (issueRead s) (deliverAnswer r { issueRead s with inputs := rest })
      [.pinAnswer s.cur.id s.cur.pin r] := by
    refine progress_busy hbusy (.inr ⟨_, r, rest, hin, fun _ => rfl⟩) ?_ (deliverAnswer_hist r _)
    rw [inProgress_of_op (d := (issueRead s).cur) hi hs.op]
    exact exec_answer hi hs.phase hs.op hk rfl hin
  exact issue.trans answer

/-- The sampler, from index k on, with 8 - k reads to make and the answers that they draw (R54, R121, R122). -/
theorem samplingRun_of_pinsComplete {i : Instr} (hi : ∀ c, i ≠ .lookup c) (n : Nat) (rs : List PinResult)
    {s : State} (hs : Samples i s) (hk : s.cur.k.toNat + n = 8)
    (hin : s.inputs = answerInputs s.cur.k.toNat rs) (hrs : pinsComplete n rs = true) :
    SamplingRun i (2 * rs.length) s (readEvents s.cur s.cur.k.toNat rs) (sampleAll s.cur.acc n rs) := by
  induction n, rs using pinsComplete.induct generalizing s with
  | case1 rs =>
    obtain rfl : rs = [] := by simpa [pinsComplete] using hrs
    exact ⟨s, .refl s, hs, hk, rfl, rfl, hin⟩
  | case2 n => simp [pinsComplete] at hrs
  | case3 n level rs ih =>
    have hread := progress_read hi hs (by omega) hin
    have hk' : (s.cur.k + 1#4).toNat = s.cur.k.toNat + 1 := index_succ (by omega)
    have hrest := ih (s := deliverAnswer (.ok level)
        { issueRead s with inputs := answerInputs (s.cur.k.toNat + 1) rs })
      ⟨hs.phase, hs.op, rfl⟩ (by simp [hk']; omega) (by simp [hk']) (by simpa [pinsComplete] using hrs)
    have hevents := readEvents_congr hread.frame.id hread.frame.pins rs (s.cur.k.toNat + 1)
    simp only [deliverAnswer_ok_cur, issueRead_cur, hk'] at hrest hevents
    rw [hevents] at hrest
    have hrun := hread.samplingRun rfl hrest
    rwa [Nat.add_comm, ← Nat.mul_succ] at hrun
  | case4 n e rs =>
    obtain rfl : rs = [] := by simpa [pinsComplete] using hrs
    exact ⟨_, progress_read hi hs (by omega) hin, rfl, rfl, by simp [answerInputs]⟩

/-- An operation whose reads all succeed makes all of them. -/
theorem length_of_sampleAll_ok {n : Nat} {rs : List PinResult} {acc c : Code} (hrs : pinsComplete n rs = true)
    (h : sampleAll acc n rs = some (.ok c)) : rs.length = n := by
  induction n, rs using pinsComplete.induct generalizing acc with
  | case1 rs => simpa [pinsComplete] using hrs
  | case2 n => simp [pinsComplete] at hrs
  | case3 n level rs ih => simpa using ih hrs h
  | case4 n e rs => simp [sampleAll] at h

/-! After the eighth level. -/

section AfterSampling

variable {s : State} (hk : s.cur.k.toNat = 8) (hin : s.inputs = [])
include hk hin

theorem sample_delivers (hs : Samples .sample s) :
    Delivers 1 s (endToCode s) (.code s.cur.acc) [] where
  toProgress := by
    refine progress_busy (by simp [hs.phase]) (.inl hin) ?_ (by simp)
    rw [inProgress_of_op (i := .sample) nofun hs.op]
    exact exec_endToCode hs.phase hs.op hk
  idle := rfl
  resp := rfl
  inputs := hin

theorem progress_endToDecode {i : Instr} (hi : i = .read ∨ i = .readAngle) (hs : Samples i s) :
    Progress 1 s (endToDecode s) [] := by
  refine progress_busy (by simp [hs.phase]) (.inl hin) ?_ (by simp)
  rw [inProgress_of_op (by obtain rfl | rfl := hi <;> exact nofun) hs.op]
  exact exec_endToDecode hi hs.phase hs.op hk

theorem read_delivers (hs : Samples .read s) :
    Delivers 2 s (decodePosition (endToDecode s)) (positionResponse (romRead s.posRom s.cur.acc))
      [.romRead s.cur.id s.cur.acc] := by
  have hdecode : Progress 1 (endToDecode s) (decodePosition (endToDecode s)) [.romRead s.cur.id s.cur.acc] := by
    refine progress_busy nofun (.inl hin) ?_ rfl
    rw [inProgress_of_op (d := (endToDecode s).cur) (i := .read) nofun hs.op]
    exact exec_read_decode rfl hs.op
  exact (progress_endToDecode hk hin (.inl rfl) hs).delivers rfl ⟨hdecode, rfl, rfl, hin⟩

theorem readAngle_delivers (hs : Samples .readAngle s) :
    Delivers 2 s (decodeAngle (endToDecode s)) (.angle (angleFor s.build (romRead s.posRom s.cur.acc)))
      (angleAccesses s.cur.id s.cur.acc (romRead s.posRom s.cur.acc)) := by
  have hdecode : Progress 1 (endToDecode s) (decodeAngle (endToDecode s))
      (angleAccesses s.cur.id s.cur.acc (romRead s.posRom s.cur.acc)) := by
    refine progress_busy nofun (.inl hin) ?_ rfl
    rw [inProgress_of_op (d := (endToDecode s).cur) (i := .readAngle) nofun hs.op]
    exact exec_readAngle_decode rfl hs.op
  exact (progress_endToDecode hk hin (.inr rfl) hs).delivers rfl ⟨hdecode, rfl, rfl, hin⟩

end AfterSampling

/-! The whole operation. -/

section Whole

variable {i : Instr} {s : State} {rest : List ReqWord} {rs : List PinResult}

theorem Ready.step_eq (h : Ready s i rest rs) :
    step s = exec i { s with cur := { s.cur with req := rest } } := by
  obtain ⟨hp, ht, ⟨w, hr, rfl⟩, hin⟩ := h
  refine step_accept hp ht hr ?_
  cases rs with
  | nil => exact .inl hin
  | cons r rs => exact .inr ⟨_, _, _, hin⟩

/-- An operation completes if it is accepted and then runs to its response. -/
theorem Ready.completes {t u : State} {n : Nat} {r : Response} {acc : List Event} (h : Ready s i rest rs)
    (haccept : exec i { s with cur := { s.cur with req := rest } } = .next t) (hhist : t.hist = s.hist)
    (hresp : t.cur.resp = s.cur.resp) (hdel : Delivers n t u r (readEvents t.cur 0 rs ++ acc))
    (hsteps : stepsOf i rs = n + 1) : Completes s i rest rs r acc := by
  have hf := (exec_frame haccept).trans hdel.frame
  have hevents : readEvents t.cur 0 rs = readEvents s.cur 0 rs :=
    readEvents_congr (e := s.cur) (exec_frame haccept).id (exec_frame haccept).pins rs 0
  refine ⟨u, ?_, hdel.idle, hresp ▸ hdel.resp, hf.req, hdel.inputs, ?_, hf.build, hf.posRom, hf.others⟩
  · rw [hsteps, run_succ (h.step_eq.trans haccept), hdel.run]
  · rw [hdel.hist, hhist, hevents]

/-- LOOKUP, in DECODE. -/
theorem lookup_delivers {t : State} (hp : t.cur.phase = .decode) (ho : t.cur.opR = .lookup)
    (hin : t.inputs = []) : Delivers 1 t (decodePosition t) (positionResponse (romRead t.posRom t.cur.codeR))
      [.romRead t.cur.id t.cur.codeR] where
  toProgress := by
    refine progress_busy (by simp [hp]) (.inl hin) ?_ rfl
    simpa [Decoder.inProgress, ho] using exec_lookup_decode hp ho
  idle := rfl
  resp := rfl
  inputs := hin

/-- LOOKUP, whole. -/
theorem Ready.lookup_completes {c : Code} (h : Ready s (.lookup c) rest []) :
    Completes s (.lookup c) rest [] (positionResponse (romRead s.posRom c)) [.romRead s.cur.id c] :=
  h.completes (lookupIsAccepted c { s with cur := { s.cur with req := rest } } h.idle h.alive) rfl rfl
    (lookup_delivers rfl rfl h.answers) rfl

/-- The state in which the sampler starts. -/
theorem Ready.samples (hi : ∀ c, i ≠ .lookup c) (h : Ready s i rest rs) :
    ∃ t, exec i { s with cur := { s.cur with req := rest } } = .next t ∧ Samples i t ∧ t.cur.k.toNat = 0 ∧
      t.cur.acc = 0#8 ∧ t.hist = s.hist ∧ t.cur.resp = s.cur.resp ∧ t.inputs = answerInputs 0 rs :=
  ⟨_, samplingOpsAreAccepted i { s with cur := { s.cur with req := rest } } hi h.idle h.alive,
    ⟨rfl, rfl, rfl⟩, rfl, rfl, rfl, rfl, h.answers⟩

/-- After a failed read an operation's response is the failure, whatever the operation. -/
theorem responseOf_fail {e : PinErr} (b : Build) (rom : Memory) (hi : ∀ c, i ≠ .lookup c)
    (h : sampleAll 0#8 8 rs = some (.error e)) : responseOf b rom i rs = some (.pinFail e) := by
  cases i with
  | lookup c => exact absurd rfl (hi c)
  | _ => simp [responseOf, h]

theorem accessesOf_fail {e : PinErr} (hi : ∀ c, i ≠ .lookup c) (h : sampleAll 0#8 8 rs = some (.error e)) :
    accessesOf s i rs = [] := by
  cases i with
  | lookup c => exact absurd rfl (hi c)
  | _ => simp [accessesOf, h]

theorem stepsOf_fail {e : PinErr} (hi : ∀ c, i ≠ .lookup c) (h : sampleAll 0#8 8 rs = some (.error e)) :
    stepsOf i rs = 2 * rs.length + 1 := by
  cases i with
  | lookup c => exact absurd rfl (hi c)
  | _ => simp [stepsOf, h, Nat.add_comm]

theorem accessesOf_congr {t : State} (hid : s.cur.id = t.cur.id) (hrom : s.posRom = t.posRom) :
    accessesOf s i rs = accessesOf t i rs := by
  cases i <;> simp [accessesOf, hid, hrom]

/-- After the eighth level an instruction comes to its response, with the accesses due (R123, R140, R165). -/
theorem Samples.delivers (hi : ∀ c, i ≠ .lookup c) (hs : Samples i s) (hk : s.cur.k.toNat = 8)
    (hin : s.inputs = []) (hx : sampleAll 0#8 8 rs = some (.ok s.cur.acc)) :
    ∃ n t r, responseOf s.build s.posRom i rs = some r ∧ Delivers n s t r (accessesOf s i rs) ∧
      stepsOf i rs = 2 * 8 + n + 1 := by
  cases i with
  | lookup c => exact absurd rfl (hi c)
  | sample =>
    refine ⟨1, endToCode s, .code s.cur.acc, by simp [responseOf, hx], ?_, by simp [stepsOf, hx]⟩
    simpa [accessesOf, hx] using sample_delivers hk hin hs
  | read =>
    refine ⟨2, decodePosition (endToDecode s), positionResponse (romRead s.posRom s.cur.acc),
      by simp [responseOf, hx], ?_, by simp [stepsOf, hx]⟩
    simpa [accessesOf, hx] using read_delivers hk hin hs
  | readAngle =>
    refine ⟨2, decodeAngle (endToDecode s), .angle (angleFor s.build (romRead s.posRom s.cur.acc)),
      by simp [responseOf, hx], ?_, by simp [stepsOf, hx]⟩
    simpa [accessesOf, hx] using readAngle_delivers hk hin hs

/-- An instruction that samples, whole. -/
theorem Ready.sampling_completes (hi : ∀ c, i ≠ .lookup c) (h : Ready s i rest rs)
    (hrs : pinsComplete 8 rs = true) :
    ∃ r, responseOf s.build s.posRom i rs = some r ∧ Completes s i rest rs r (accessesOf s i rs) := by
  obtain ⟨t, haccept, hsamples, hk, hacc, hhist, hresp, hin⟩ := h.samples hi
  have hrun := samplingRun_of_pinsComplete hi 8 rs hsamples (by omega) (hk ▸ hin) hrs
  rw [hk, hacc] at hrun
  cases hx : sampleAll 0#8 8 rs with
  | none => simp [hx, SamplingRun] at hrun
  | some o =>
    rw [hx] at hrun
    cases o with
    | error e =>
      obtain ⟨u, hdel⟩ := hrun
      rw [accessesOf_fail hi hx]
      exact ⟨_, responseOf_fail _ _ hi hx,
        h.completes haccept hhist hresp (by simpa using hdel) (stepsOf_fail hi hx)⟩
    | ok c =>
      obtain ⟨u, hprog, hs, hk8, rfl, hr, hend⟩ := hrun
      have hf := (exec_frame haccept).trans hprog.frame
      obtain ⟨m, v, r, hresponse, hdel, hsteps⟩ := hs.delivers hi hk8 hend hx
      rw [hf.build, hf.posRom] at hresponse
      rw [accessesOf_congr (t := s) hf.id hf.posRom] at hdel
      have hlen := length_of_sampleAll_ok hrs hx
      exact ⟨r, hresponse, h.completes haccept hhist hresp (hprog.delivers hr hdel) (by rw [hsteps, hlen])⟩

end Whole

/-- Settles O21: LOOKUP by itself, and the instructions that sample by `sampling_completes`. -/
theorem microStepsRefineTheOperation : Obligations.MicroStepsRefineTheOperation := by
  intro i s rest rs h hrs
  cases i with
  | lookup c =>
    obtain rfl : rs = [] := by simpa [readsDue, pinsComplete] using hrs
    exact ⟨_, rfl, h.lookup_completes⟩
  | _ => exact h.sampling_completes nofun hrs

/-- The response of a whole operation is fixed by the run. -/
theorem Completes.response_unique {i : Instr} {s : State} {rest : List ReqWord} {rs : List PinResult}
    {r r' : Response} {acc acc' : List Event} (h : Completes s i rest rs r acc)
    (h' : Completes s i rest rs r' acc') : r = r' := by
  obtain ⟨t, hrun, -, hresp, -⟩ := h
  obtain ⟨t', hrun', -, hresp', -⟩ := h'
  obtain rfl : t = t' := by simpa [hrun] using hrun'
  simpa [hresp] using hresp'

/-- Settles O29: both operations have the response of the operation read as one piece. -/
theorem noHiddenState : Obligations.NoHiddenState := by
  intro i s t restS restT rs r acc hs ht hrs hbuild hrom hcomp
  obtain ⟨rs', hrs', hcompS⟩ := microStepsRefineTheOperation i s restS rs hs hrs
  obtain ⟨rt', hrt', hcompT⟩ := microStepsRefineTheOperation i t restT rs ht hrs
  have heq : rs' = rt' := by simpa [hbuild, hrom, hrt'] using hrs'.symm
  rw [hcomp.response_unique hcompS, heq]
  exact hcompT

end Sys2Proof.Machine
end

section
namespace Sys2Proof.Machine

/-! ### The ROM holds its table (R25, R105) -/

/-- A list of cells, at most one for each address in `l`, reads as the cell of the address. -/
theorem read_filterMap (f : Nat → Option Host.Cell) (hf : ∀ a x, f a = some x → x.1 = a) (l : List Nat) (a : Nat) :
    Memory.read (l.filterMap f) a = if a ∈ l then ((f a).map (·.2)).getD 0#8 else 0#8 := by
  induction l with
  | nil => simp [Memory.read]
  | cons b l ih =>
    cases hb : f b with
    | none =>
      rw [List.filterMap_cons_none hb, ih]
      by_cases hab : a = b <;> simp [hab, hb]
    | some x =>
      rw [List.filterMap_cons_some hb]
      have hx := hf b x hb
      by_cases hab : a = b
      · subst hab; simp [Memory.read, hx, hb]
      · simp [Memory.read, hx, hab, Ne.symm hab, ih]

theorem read_romImage (t : Code → Option Pos) (c : Code) :
    Memory.read (romImage t) c.toNat = romWord (t c) := by
  rw [romImage, read_filterMap]
  · have hc : c.toNat < 256 := c.isLt
    cases h : t c <;> simp [hc, h, romWord]
  · intro a x h
    cases ht : t (BitVec.ofNat 8 a) <;> simp [ht] at h
    exact h ▸ rfl

/-- A word of the ROM is read back as its entry. -/
theorem romWord_entry (o : Option Pos) :
    (if (romWord o).getLsbD 7 then some ((romWord o).extractLsb' 0 7) else none) = o := by
  cases o with
  | none => rfl
  | some p =>
    have hvalid : (1#1 ++ p).getLsbD 7 = true := by rw [BitVec.getLsbD_append]; simp
    have hpos : (1#1 ++ p).extractLsb' 0 7 = p := BitVec.extractLsb'_append_eq_right
    exact (if_pos hvalid).trans (congrArg some hpos)

theorem romRead_romImage (t : Code → Option Pos) (c : Code) : romRead (romImage t) c = t c := by
  rw [romRead, read_romImage]
  exact romWord_entry (t c)

/-! ### Reset (R31, R230, R232) -/

theorem reset_instances : State.reset.instances =
    (List.range (Config.moreInstances + 1)).map fun n => Decoder.fresh n (boundPins n) := by
  rw [List.range_succ_eq_map]
  simp [State.instances, State.reset, Function.comp_def]

theorem inv_fresh (n : Nat) (pins : Vector Nat 8) : (Decoder.fresh n pins).Inv :=
  Decoder.inv_of_idle rfl (by simp [Decoder.fresh]) rfl

theorem mem_boundPins {n x : Nat} : x ∈ (boundPins n).toList ↔ ∃ k, Config.pinBinding.line n k = x := by
  simp [boundPins]

/-- The handles of one decoder are bound to different inputs (R6, R232). -/
theorem boundPins_nodup (n : Nat) : (boundPins n).toList.Nodup := by
  simp only [boundPins, Vector.toList_ofFn, List.nodup_ofFn]
  exact fun k k' h => (Config.pinBinding.exclusive n k n k' h).2

/-- Two decoders share no input (R233). -/
theorem boundPins_disjoint {m n : Nat} (h : m ≠ n) : (boundPins m).toList.Disjoint (boundPins n).toList := by
  intro x hm hn
  obtain ⟨k, rfl⟩ := mem_boundPins.mp hm
  obtain ⟨k', hk'⟩ := mem_boundPins.mp hn
  exact h (Config.pinBinding.exclusive n k' m k hk').1.symm

/-- Settles O45: the table is the one POS_ROM is built from, and PIN_BINDING shares no input. -/
theorem resetMeetsTheInvariant : Obligations.ResetMeetsTheInvariant where
  rom := reset_posRom_wf
  table := by
    have h : romRead State.reset.posRom = Config.table.entry := funext (romRead_romImage Config.table.entry)
    exact h ▸ Config.table.ok
  each d hd := by
    obtain ⟨n, -, rfl⟩ := List.mem_map.mp (reset_instances ▸ hd)
    exact inv_fresh n _
  numbers := by
    have hid : (fun n => (Decoder.fresh n (boundPins n)).id) = id := rfl
    rw [reset_instances, List.map_map]
    simpa [Function.comp_def, hid] using List.nodup_range
  exclusive := by
    rw [reset_instances, List.flatMap_map, List.nodup_flatMap]
    exact ⟨fun n _ => boundPins_nodup n, List.nodup_range.imp boundPins_disjoint⟩

/-- Settles O36: after reset every decoder is a fresh one. -/
theorem resetLeavesAnIdleMachine : Obligations.ResetLeavesAnIdleMachine := by
  refine ⟨fun d hd => ?_, rfl, rfl, rfl⟩
  obtain ⟨n, -, rfl⟩ := List.mem_map.mp (reset_instances ▸ hd)
  exact ⟨rfl, rfl, rfl, rfl, rfl, rfl, fun _ => rfl⟩

/-! ### The response signals (R30, R77) -/

theorem respOfPort_respPort (f : AngleFmt) {o : Op} {r : Response} (h : r.answers o = true) :
    respOfPort o (respPort f r) = some r := by
  cases r with
  | code c =>
    obtain rfl : o = .sample := by simpa [Response.answers] using h
    rfl
  | angle a =>
    obtain rfl : o = .readAngle := by simpa [Response.answers] using h
    rfl
  | _ => rfl

/-- A micro-step delivers at most one response. -/
theorem Micro.resp {i : Instr} {s t : State} (h : Micro i s t) :
    t.cur.resp = s.cur.resp ∨ ∃ r, t.cur.resp = s.cur.resp ++ [r] := by
  cases h with
  | @answer _ _ r =>
    cases r with
    | ok level => exact .inl rfl
    | err e => exact .inr ⟨_, rfl⟩
  | endSample => exact .inr ⟨_, rfl⟩
  | position => exact .inr ⟨_, rfl⟩
  | angle => exact .inr ⟨_, rfl⟩
  | _ => exact .inl rfl

/-! ### The answer signals (R30, R54, R231) -/

theorem pinA_answer {s : State} {p : Pin} {r : PinResult} {rest : List Input}
    (hin : s.inputs = .answer p r :: rest) (k : Pin) :
    pinA s k = if s.cur.outstanding ∧ k = s.cur.pin ∧ p = k then pinPort r else pinIdle := by
  simp [pinA, hin, pinQ, and_assoc]

theorem pinA_late {s : State} {p : Pin} {r : PinResult} {rest : List Input}
    (hin : s.inputs = .late p r :: rest) (k : Pin) :
    pinA s k = if p = k ∧ k ∈ s.cur.stale then pinPort r else pinIdle := by
  simp [pinA, hin]

theorem pinA_valid_iff (s : State) (k : Pin) : (pinA s k).valid = true ↔
    ∃ r rest, (s.inputs = .answer k r :: rest ∧ s.cur.outstanding = true ∧ k = s.cur.pin) ∨
      (s.inputs = .late k r :: rest ∧ k ∈ s.cur.stale) := by
  have idle : pinIdle.valid = false := rfl
  cases hin : s.inputs with
  | nil => simp [pinA, hin, idle]
  | cons i rest =>
    cases i with
    | answer p r =>
      rw [pinA_answer hin]
      split_ifs with h
      · obtain ⟨hout, hk, rfl⟩ := h
        simp [hout, ← hk]
      · refine iff_of_false (by simp [idle]) ?_
        rintro ⟨r', rest', ⟨⟨⟩, hout, hk⟩ | ⟨⟨⟩, -⟩⟩
        exact h ⟨hout, hk, rfl⟩
    | late p r =>
      rw [pinA_late hin]
      split_ifs with h
      · obtain ⟨rfl, hk⟩ := h
        simp [hk]
      · refine iff_of_false (by simp [idle]) ?_
        rintro ⟨r', rest', ⟨⟨⟩, -⟩ | ⟨⟨⟩, hk⟩⟩
        exact h ⟨rfl, hk⟩
    | _ => simp [pinA, hin, idle]

/-- The micro-step that records an answer takes it from the environment, as the answer to the outstanding read. -/
theorem Micro.answer_of_hist {i : Instr} {s t : State} {n : Nat} {k : Pin} {r : PinResult} (h : Micro i s t)
    (hhist : t.hist = s.hist ++ [.pinAnswer n k r]) :
    s.cur.outstanding = true ∧ k = s.cur.pin ∧ ∃ rest, s.inputs = .answer k r :: rest := by
  cases h with
  | @answer _ _ r' rest hi hp ho hk hw hin =>
    simp only [deliverAnswer_hist, List.append_cancel_left_eq, List.cons.injEq, Event.pinAnswer.injEq,
      and_true] at hhist
    obtain ⟨-, rfl, rfl⟩ := hhist
    exact ⟨(outstanding_iff _).mpr ⟨hp, hw, hk⟩, rfl, rest, hin⟩
  | angle =>
    rw [decodeAngle_hist, List.append_cancel_left_eq] at hhist
    cases hrom : romRead s.posRom s.cur.codeR <;> simp [angleAccesses, hrom] at hhist
  | _ => simp at hhist

/-- An answer that a step records is on the signals in that step. -/
theorem StepKind.pinA_of_hist {s t : State} {o : Host.Outcome State Fault Refusal} {n : Nat} {k : Pin} {r : PinResult}
    (h : StepKind s o) (ho : o = .next t) (hhist : t.hist = s.hist ++ [.pinAnswer n k r]) :
    pinOfPort (pinA s k) = some r := by
  cases h with
  | refuse => cases ho
  | accept w q l hp =>
    obtain ⟨hout, -⟩ := (exec_next ho).answer_of_hist hhist
    simp [Decoder.outstanding, hp] at hout
  | proceed l hp hl =>
    obtain ⟨hout, hk, rest, hin⟩ := (exec_next ho).answer_of_hist hhist
    obtain hl | ⟨-, hno⟩ := hl
    · rw [pinA_answer (hl.trans hin), if_pos ⟨hout, hk, rfl⟩, pinOfPort_pinPort]
    · exact absurd hout (by simpa using hno)
  | _ => cases ho; simp at hhist

/-- Settles O49: the signals of each response and each answer, and what a step does to RESP and takes from PIN_A. -/
theorem portsCarryTheChannels : Obligations.PortsCarryTheChannels := by
  refine ⟨fun f _ _ => respOfPort_respPort f, fun _ _ => rfl, fun _ => rfl, fun _ _ => rfl, fun _ _ => rfl,
    fun _ _ => rfl, ?_, pinOfPort_pinPort, ?_, fun s _ _ _ _ h => (step_kind s).pinA_of_hist h, ?_, pinA_valid_iff⟩
  · intro f i s t h
    obtain hr | ⟨r, hr⟩ := (exec_next h).resp
    · exact .inl ⟨hr, by rw [respSignals_none f hr]; rfl⟩
    · exact .inr ⟨r, hr, respSignals_append f hr⟩
  · intro s r rest hout hin
    refine ⟨by rw [pinA_answer hin, if_pos ⟨hout, rfl, rfl⟩, pinOfPort_pinPort], fun j hj => ?_⟩
    rw [pinA_answer hin, if_neg fun h => hj h.2.1]
    rfl
  · intro s k r rest hin hk
    rw [pinA_late hin, if_pos ⟨rfl, hk⟩, pinOfPort_pinPort]

end Sys2Proof.Machine
end

section
namespace Sys2Proof.Machine

/-! ### Instances do not interact (R62, R215)

A step reads neither the other instances nor the history: putting other ones in their place commutes with every
operation of the machine but the change of turn. -/

/-- The machine with other instances beside the one whose turn it is, and with an earlier history before its own. -/
def State.inContext (os : List Decoder) (h : List Event) (s : State) : State :=
  { s with others := os, hist := h ++ s.hist }

/-- An outcome whose next state, if there is one, is put in a context. -/
def outcomeInContext (os : List Decoder) (h : List Event) :
    Host.Outcome State Fault Refusal → Host.Outcome State Fault Refusal
  | .next s => .next (s.inContext os h)
  | .fault x => .fault x
  | .refused x => .refused x

/-- The next action with its states put in a context. -/
def Action.inContext (os : List Decoder) (h : List Event) : Action → Action
  | .settle o => .settle (outcomeInContext os h o)
  | .run i s => .run i (s.inContext os h)

section InContext

variable (os : List Decoder) (h : List Event)

@[simp] theorem inContext_cur (s : State) : (s.inContext os h).cur = s.cur := rfl
@[simp] theorem inContext_inputs (s : State) : (s.inContext os h).inputs = s.inputs := rfl

@[simp] theorem outcomeInContext_next (s : State) :
    outcomeInContext os h (.next s) = .next (s.inContext os h) := rfl
@[simp] theorem outcomeInContext_refused (x : Refusal) : outcomeInContext os h (.refused x) = .refused x := rfl

@[simp] theorem action_inContext_settle (o : Host.Outcome State Fault Refusal) :
    (Action.settle o).inContext os h = .settle (outcomeInContext os h o) := rfl
@[simp] theorem action_inContext_run (i : Instr) (s : State) :
    (Action.run i s).inContext os h = .run i (s.inContext os h) := rfl

/-! The operations that the instructions share. -/

theorem log_inContext (e : Event) (s : State) : (s.inContext os h).log e = (s.log e).inContext os h := by
  simp [State.log, State.inContext]

@[simp] theorem acceptSampling_inContext (o : Op) (s : State) :
    acceptSampling o (s.inContext os h) = (acceptSampling o s).inContext os h := by
  cases ht : s.cur.torn with
  | true => rw [acceptSampling_torn o ht]; exact acceptSampling_torn o ht
  | false => rw [acceptSampling_alive o ht]; exact acceptSampling_alive o ht

@[simp] theorem acceptLookup_inContext (c : Code) (s : State) :
    acceptLookup c (s.inContext os h) = (acceptLookup c s).inContext os h := by
  cases ht : s.cur.torn with
  | true => rw [acceptLookup_torn c ht]; exact acceptLookup_torn c ht
  | false => rw [acceptLookup_alive c ht]; exact acceptLookup_alive c ht

@[simp] theorem issueRead_inContext (s : State) :
    issueRead (s.inContext os h) = (issueRead s).inContext os h :=
  log_inContext os h _ { s with cur := { s.cur with wait := true } }

@[simp] theorem deliverAnswer_inContext (r : PinResult) (s : State) :
    deliverAnswer r (s.inContext os h) = (deliverAnswer r s).inContext os h := by
  have hlog := log_inContext os h (.pinAnswer s.cur.id s.cur.pin r) { s with cur := { s.cur with wait := false } }
  cases r with
  | ok level => exact congrArg (takeLevel level) hlog
  | err e => exact congrArg (raisePinReadFailure e) hlog

@[simp] theorem awaitAnswer_inContext (s : State) :
    awaitAnswer (s.inContext os h) = (awaitAnswer s).inContext os h := by
  unfold awaitAnswer
  rw [inContext_inputs]
  split
  · rename_i p r rest _
    rw [inContext_cur]
    split
    · exact deliverAnswer_inContext os h r { s with inputs := rest }
    · rfl
  · rfl

theorem endToDecode_inContext (s : State) :
    endToDecode (s.inContext os h) = (endToDecode s).inContext os h := rfl

theorem endToCode_inContext (s : State) : endToCode (s.inContext os h) = (endToCode s).inContext os h := rfl

@[simp] theorem decodePosition_inContext (s : State) :
    decodePosition (s.inContext os h) = (decodePosition s).inContext os h :=
  congrArg (respond _) (log_inContext os h _ s)

@[simp] theorem decodeAngle_inContext (s : State) :
    decodeAngle (s.inContext os h) = (decodeAngle s).inContext os h := by
  simp [decodeAngle, respond, State.inContext]

theorem samplingStep_inContext {atEnd : State → State}
    (hEnd : ∀ s, atEnd (s.inContext os h) = (atEnd s).inContext os h) (s : State) :
    samplingStep atEnd (s.inContext os h) = outcomeInContext os h (samplingStep atEnd s) := by
  simp only [samplingStep, inContext_cur, awaitAnswer_inContext, issueRead_inContext, hEnd]
  split_ifs <;> rfl

/-- No instruction reads the other instances or the history. -/
theorem exec_inContext (i : Instr) (s : State) :
    exec i (s.inContext os h) = outcomeInContext os h (exec i s) := by
  have hdecode := samplingStep_inContext os h (endToDecode_inContext os h) s
  have hcode := samplingStep_inContext os h (endToCode_inContext os h) s
  cases i with
  | read => cases hp : s.cur.phase <;> simp [exec, execRead, hp, hdecode, apply_ite (outcomeInContext os h)]
  | readAngle =>
    cases hp : s.cur.phase <;> simp [exec, execReadAngle, hp, hdecode, apply_ite (outcomeInContext os h)]
  | sample => cases hp : s.cur.phase <;> simp [exec, execSample, hp, hcode, apply_ite (outcomeInContext os h)]
  | lookup c => cases hp : s.cur.phase <;> simp [exec, execLookup, hp, apply_ite (outcomeInContext os h)]

/-! What happens next. -/

theorem ownMove_inContext (s : State) : ownMove (s.inContext os h) = (ownMove s).inContext os h := by
  unfold ownMove
  rw [inContext_cur]
  split
  · split
    · rfl
    · split <;> rfl
  · rfl
  · rfl

theorem tickMove_inContext (s : State) : tickMove (s.inContext os h) = (tickMove s).inContext os h := by
  simp [tickMove, ownMove_inContext, apply_ite (Action.inContext os h)]

theorem answerMove_inContext (p : Pin) (s : State) :
    answerMove p (s.inContext os h) = (answerMove p s).inContext os h := by
  simp [answerMove, ownMove_inContext, apply_ite (Action.inContext os h)]

/-- The choice of the next action reads the other instances at a change of turn only. -/
theorem nextAction_inContext {s : State} (hturn : ∀ rest, s.inputs ≠ .rotate :: rest) :
    nextAction (s.inContext os h) = (nextAction s).inContext os h := by
  unfold nextAction
  rw [inContext_inputs]
  cases hin : s.inputs with
  | nil => exact ownMove_inContext os h s
  | cons i rest =>
    cases i with
    | rotate => exact absurd hin (hturn rest)
    | tick => exact tickMove_inContext os h { s with inputs := rest }
    | answer p r => exact answerMove_inContext os h p s
    | late p r =>
      exact (apply_ite (Action.inContext os h) (p ∈ s.cur.stale)
        (.settle (.next (discardLate p { s with inputs := rest }))) (.settle (.refused .unaskedAnswer))).symm
    | offer w => rfl
    | reset => rfl
    | teardown => rfl

theorem step_inContext {s : State} (hturn : ∀ rest, s.inputs ≠ .rotate :: rest) :
    step (s.inContext os h) = outcomeInContext os h (step s) := by
  unfold step
  rw [nextAction_inContext os h hturn]
  cases nextAction s with
  | settle o => rfl
  | run i t => exact exec_inContext os h i t

end InContext

/-- The instance whose turn it is, with no other instance and no history. -/
def State.alone (s : State) : State := { s with others := [], hist := [] }

theorem alone_inContext (os : List Decoder) (h : List Event) (s : State) :
    s.alone.inContext os h = { s with others := os, hist := h } := by
  simp [State.alone, State.inContext]

theorem outcomeInContext_eq_next {os : List Decoder} {h : List Event} {o : Host.Outcome State Fault Refusal}
    {t : State} (ho : outcomeInContext os h o = .next t) : ∃ u, o = .next u ∧ u.inContext os h = t := by
  cases o with
  | next u => exact ⟨u, rfl, by simpa using ho⟩
  | fault x => cases ho
  | refused x => cases ho

theorem step_rotate {s : State} {rest : List Input} (hin : s.inputs = .rotate :: rest) :
    step s = .next (passTurn { s with inputs := rest }) := by
  simp [step, nextAction, hin]

/-- Settles O47: a step is the step of the instance alone, put back in its context. -/
theorem instancesDoNotInteract : Obligations.InstancesDoNotInteract := by
  refine ⟨fun s t os h hturn hstep => ?_, fun s rest hin => ?_⟩
  · have hctx : ∀ os h, step { s with others := os, hist := h } = outcomeInContext os h (step s.alone) := by
      intro os h
      rw [← alone_inContext]
      exact step_inContext os h hturn
    obtain ⟨u, hu, rfl⟩ := outcomeInContext_eq_next ((hctx s.others s.hist).symm.trans hstep)
    exact ⟨rfl, u.hist, rfl, by rw [hctx, hu]; rfl⟩
  · exact ⟨_, step_rotate hin, passTurn_instances _, by simp⟩

end Sys2Proof.Machine
end

section
namespace Sys2Proof.Machine

/-! ### The outstanding read (R30, R54, R56) -/

/-- While a read is outstanding and nothing happens outside, a step changes nothing. -/
theorem step_waits {s : State} (hout : s.cur.outstanding = true) (hin : s.inputs = []) : step s = .next s := by
  obtain ⟨hp, hw, hk⟩ := (outstanding_iff _).mp hout
  rw [step_busy (by simp [hp]) (.inl hin)]
  by_cases hi : ∀ c, s.cur.inProgress ≠ .lookup c
  · rw [exec_sampling hi hp (opOf_inProgress _).symm]
    simp [samplingStep, hk, hw, awaitAnswer, hin]
  · obtain ⟨c, hc⟩ := not_forall_not.mp hi
    simp [hc, exec, execLookup, hp]

/-- Settles O30: a state that steps to itself stays for ever. -/
theorem unansweredReadWaitsForEver : Obligations.UnansweredReadWaitsForEver :=
  fun _ n hp hw hk hin => run_stay (step_waits ((outstanding_iff _).mpr ⟨hp, hw, hk⟩) hin) n

/-- With a pin left to read, the selected pin is the index itself (R120). -/
theorem pin_val {d : Decoder} (hk : d.k.toNat < 8) : d.pin.val = d.k.toNat := Nat.mod_eq_of_lt hk

theorem pinQ_iff (d : Decoder) (k : Pin) : pinQ d k = true ↔ d.outstanding = true ∧ k = d.pin := by
  simp [pinQ]

/-- Settles O51: a pin is asked only while a read is outstanding, and only the selected one. -/
theorem onePinReadAtATime : Obligations.OnePinReadAtATime := by
  intro d j k hj
  obtain ⟨hout, rfl⟩ := (pinQ_iff d j).mp hj
  obtain ⟨hp, hw, hk⟩ := (outstanding_iff d).mp hout
  exact ⟨fun h => ((pinQ_iff d k).mp h).2.symm, pin_val hk, hp, hw, by simp [reqReady, hp]⟩

/-! ### The bits of the packed code (R57) -/

theorem getLsbD_packStep (acc : Code) (level : Bool) {j : Nat} (hj : j < 8) :
    (packStep acc level).getLsbD j = if j = 0 then level else acc.getLsbD (j - 1) := by
  cases j with
  | zero => simp [packStep]
  | succ j => simp [packStep, hj, BitVec.getLsbD_eq_getElem (show j < 8 by omega)]

/-- The packer takes the levels in from the right: the last one is bit 0 (R57, R124). -/
theorem getLsbD_pack (levels : List Bool) {j : Nat} (hj : j < 8) :
    (pack levels).getLsbD j = levels.reverse.getD j false := by
  induction levels using List.reverseRecOn generalizing j with
  | nil => simp [pack]
  | append_singleton l b ih =>
    have hpack : pack (l ++ [b]) = packStep (pack l) b := List.foldl_concat ..
    rw [hpack, getLsbD_packStep _ _ hj]
    cases j with
    | zero => simp
    | succ j => simpa using ih (by omega)

/-- Settles O10: eight levels, counted from the right. -/
theorem handleIsBitSevenMinusItself : Obligations.HandleIsBitSevenMinusItself := by
  intro v k
  have hk : 8 - 1 - (7 - k.val) = k.val := by omega
  rw [getLsbD_pack _ (by omega), List.getD_eq_getElem _ _ (by simp; omega)]
  simp [hk]

end Sys2Proof.Machine
end

section
namespace Sys2Proof.Machine

/-! ### A request word is an op field and a code field (R70 to R74) -/

/-- The instruction that op field and code field make: only LOOKUP takes the code (R72). -/
def Op.instr (o : Op) (c : Code) : Instr :=
  match o with
  | .read => .read
  | .readAngle => .readAngle
  | .sample => .sample
  | .lookup => .lookup c

/-- The code field of an instruction's canonical word: 0 where it is ignored (R72). -/
def operandOf : Instr → Code
  | .read => 0#8
  | .readAngle => 0#8
  | .sample => 0#8
  | .lookup c => c

@[simp] theorem instr_opOf_operandOf (i : Instr) : (opOf i).instr (operandOf i) = i := by
  cases i <;> rfl

@[simp] theorem opOf_instr (o : Op) (c : Code) : opOf (o.instr c) = o := by
  cases o <;> rfl

theorem inProgress_eq_instr (d : Decoder) : d.inProgress = d.opR.instr d.codeR := by
  cases h : d.opR <;> simp [Decoder.inProgress, Op.instr, h]

/-- Every value of the op field is an operation (R71). -/
theorem Op.exists_bits_eq (b : BitVec 2) : ∃ o : Op, o.bits = b := by
  have hb : b = 0#2 ∨ b = 1#2 ∨ b = 2#2 ∨ b = 3#2 := by revert b; decide
  obtain rfl | rfl | rfl | rfl := hb
  exacts [⟨.read, rfl⟩, ⟨.readAngle, rfl⟩, ⟨.sample, rfl⟩, ⟨.lookup, rfl⟩]

theorem exists_eq_bits_append (w : ReqWord) : ∃ (o : Op) (c : Code), w = o.bits ++ c := by
  obtain ⟨o, ho⟩ := Op.exists_bits_eq (reqOp w)
  exact ⟨o, reqCode w, by rw [ho]; exact (BitVec.extractLsb'_append_extractLsb' (w := 2) (len := 8)).symm⟩

@[simp] theorem reqOp_append (b : BitVec 2) (c : Code) : reqOp (b ++ c) = b :=
  BitVec.extractLsb'_append_eq_left

@[simp] theorem reqCode_append (b : BitVec 2) (c : Code) : reqCode (b ++ c) = c :=
  BitVec.extractLsb'_append_eq_right

@[simp] theorem decode_bits_append (o : Op) (c : Code) : decode (o.bits ++ c) = o.instr c := by
  cases o <;> simp [decode, Op.bits, Op.instr]

theorem Op.bits_injective : Function.Injective Op.bits := fun o o' h => by
  simpa using congrArg (fun b => opOf (decode (b ++ 0#8))) h

theorem encode_eq_append (i : Instr) : encode i = (opOf i).bits ++ operandOf i := by
  cases i with
  | lookup c =>
    have h := BitVec.setWidth_append_eq_shiftLeft_setWidth_or (w'' := 10) (b := 0b11#2) (b' := c)
    rw [BitVec.setWidth_eq] at h
    exact h.symm
  | _ => rfl

theorem append_and_opMask (b : BitVec 2) (c : Code) : (b ++ c) &&& 0x300#10 = b ++ 0#8 := by
  have hmask : 0x300#10 = BitVec.allOnes 2 ++ 0#8 := rfl
  rw [hmask, BitVec.and_append, BitVec.and_allOnes, BitVec.and_zero]

theorem decode_encode (i : Instr) : decode (encode i) = i := by simp [encode_eq_append]

theorem encode_decode (w : ReqWord) :
    encode (decode w) = if reqOp w = 0b11#2 then w else w &&& 0x300#10 := by
  obtain ⟨o, c, rfl⟩ := exists_eq_bits_append w
  rw [decode_bits_append, encode_eq_append, reqOp_append, append_and_opMask]
  cases o <;> rfl

/-- A number is decoded as the word of its ten bits (R70). -/
theorem decodeTableWord_toNat (n : Nat) (w : ReqWord) : decodeTableWord n w.toNat = some (decode w) := by
  simp [decodeTableWord, decodeBits, w.isLt]

/-- Settles O1: both directions on words written as op field and code field. -/
theorem decodeEncodeAgree : Obligations.DecodeEncodeAgree :=
  ⟨fun i _ => decode_encode i, encode_decode, fun n i => by rw [decodeTableWord_toNat, decode_encode]⟩

/-- Settles O3: words with one op field differ in the code field only, and only LOOKUP takes that. -/
theorem ignoredBitsChangeNothing : Obligations.IgnoredBitsChangeNothing := by
  intro w w' hop
  obtain ⟨o, c, rfl⟩ := exists_eq_bits_append w
  obtain ⟨o', c', rfl⟩ := exists_eq_bits_append w'
  obtain rfl : o = o' := Op.bits_injective (by simpa using hop)
  have hcode : (o.bits ++ c).setWidth 8 = c := BitVec.setWidth_append_eq_right
  simp only [reqOp_append, decode_bits_append, hcode]
  cases o with
  | lookup => exact ⟨fun h => absurd rfl h, fun _ => ⟨rfl, fun h => by cases h; rfl⟩⟩
  | _ => exact ⟨fun _ => rfl, fun h => absurd h (by decide)⟩

/-- Settles O2: the mask leaves the op field, and each op field is the pattern of one row. -/
theorem rowsPartitionTheWords : Obligations.RowsPartitionTheWords := by
  refine ⟨rfl, fun w => ?_, fun c => decode_bits_append .lookup c⟩
  obtain ⟨o, c, rfl⟩ := exists_eq_bits_append w
  rw [decode_bits_append]
  cases o <;> simp [opcodeMap, append_and_opMask, Op.bits, Op.instr, Instr.mnemonic]

end Sys2Proof.Machine
end

section
namespace Sys2Proof.Machine

/-! ### Numbers in the assembler text (R78) -/

theorem digitsValue_append (base : Nat) (digit : Char → Option Nat) (acc : Nat) (cs ds : List Char) :
    digitsValue base digit acc (cs ++ ds) =
      (digitsValue base digit acc cs).bind fun v => digitsValue base digit v ds := by
  induction cs generalizing acc with
  | nil => rfl
  | cons c cs ih =>
    cases h : digit c with
    | none => simp [digitsValue, h]
    | some d => simp [digitsValue, h, ih]

theorem digitsValue_map (base : Nat) (digit : Char → Option Nat) (f : Char → Char) (acc : Nat)
    (cs : List Char) : digitsValue base digit acc (cs.map f) = digitsValue base (digit ∘ f) acc cs := by
  induction cs generalizing acc with
  | nil => rfl
  | cons c cs ih => simp [digitsValue, ih]

/-- A number written in a base is read back by any reading of the base's digits. -/
theorem digitsValue_toDigits {base : Nat} {digit : Char → Option Nat} (hbase : 1 < base)
    (hdigit : ∀ d < base, digit d.digitChar = some d) (n : Nat) :
    digitsValue base digit 0 (Nat.toDigits base n) = some n := by
  induction n using Nat.strong_induction_on with
  | _ n ih =>
    obtain hn | hn := Nat.lt_or_ge n base
    · simp [Nat.toDigits_of_lt_base hn, digitsValue, hdigit n hn]
    · have hquot := ih (n / base) (Nat.div_lt_self (by omega) hbase)
      have hlast := hdigit (n % base) (Nat.mod_lt n (by omega))
      simp [Nat.toDigits_of_base_le hbase hn, digitsValue_append, hquot, digitsValue, hlast,
        Nat.div_add_mod']

theorem decDigit_digitChar : ∀ d < 10, decDigit d.digitChar = some d := by decide

theorem hexDigit_digitChar : ∀ d < 16, hexDigit d.digitChar = some d := by decide

theorem hexDigit_toUpper_digitChar : ∀ d < 16, (hexDigit ∘ Char.toUpper) d.digitChar = some d := by decide

/-- A text that is a decimal number is read as one: no such text opens with 0x. -/
theorem parseCode_of_decimal {cs : List Char} {c : Code} (hne : cs ≠ [])
    (h : digitsValue 10 decDigit 0 cs = some c.toNat) : parseCode cs = some c := by
  have hx : ∀ ds, cs ≠ '0' :: 'x' :: ds := by
    rintro ds rfl
    simp [digitsValue, decDigit] at h
  unfold parseCode
  split
  · exact absurd rfl hne
  · exact absurd rfl (hx [])
  · exact absurd rfl (hx _)
  · simp [h, c.isLt]

theorem parseCode_of_hex {ds : List Char} {c : Code} (hne : ds ≠ [])
    (h : digitsValue 16 hexDigit 0 ds = some c.toNat) : parseCode ('0' :: 'x' :: ds) = some c := by
  obtain ⟨d, ds, rfl⟩ := List.exists_cons_of_ne_nil hne
  simp [parseCode, h, c.isLt]

theorem parseRequest_lookup {cs : List Char} {c : Code} (h : parseCode cs = some c) :
    parseRequest [['L', 'O', 'O', 'K', 'U', 'P'], cs] = some (.lookup c) := by
  simp [parseRequest, h]

/-- Settles O5: in both bases, the number of a code is read back. -/
theorem assemblerReadsEveryCode : Obligations.AssemblerReadsEveryCode := by
  refine ⟨fun c => ⟨parseRequest_lookup ?_, parseRequest_lookup ?_, parseRequest_lookup ?_, rfl⟩,
    by decide, by decide⟩
  · exact parseCode_of_decimal Nat.toDigits_ne_nil (digitsValue_toDigits (by decide) decDigit_digitChar _)
  · exact parseCode_of_hex Nat.toDigits_ne_nil (digitsValue_toDigits (by decide) hexDigit_digitChar _)
  · refine parseCode_of_hex (by simp [Nat.toDigits_ne_nil]) ?_
    rw [digitsValue_map]
    exact digitsValue_toDigits (by decide) hexDigit_toUpper_digitChar _

end Sys2Proof.Machine
end

section
namespace Sys2Proof.Machine

/-! ### The row of a response (R77) -/

theorem toAngle_fmt (f : AngleFmt) (x : Fp) : (x.toAngle f).fmt = f := by
  cases f <;> rfl

/-- Whatever the table says, READ_ANGLE answers in the configured format (R160, R164). -/
theorem angleFor_fmt (b : Build) (o : Option Pos) : (angleFor b o).fmt = b.fmt := by
  cases o with
  | some p =>
    rw [angleFor, angleUnit_eq_angleOf]
    cases b.conv <;> exact toAngle_fmt _ _
  | none =>
    unfold angleFor fallbackAngle
    cases b.fallback <;> cases b.fmt <;> rfl

/-- The operation may answer so (R77), and an angle has the configured format (R160). -/
def InRow (b : Build) (o : Op) (r : Response) : Prop :=
  r.answers o = true ∧ ∀ a, r = .angle a → a.fmt = b.fmt

theorem inRow_pinFail {b : Build} {i : Instr} (hi : ∀ c, i ≠ .lookup c) (e : PinErr) :
    InRow b (opOf i) (.pinFail e) := by
  cases i with
  | lookup c => exact absurd rfl (hi c)
  | _ => exact ⟨rfl, nofun⟩

theorem inRow_positionResponse {b : Build} {o : Op} (ho : o = .lookup ∨ o = .read) (e : Option Pos) :
    InRow b o (positionResponse e) := by
  cases e <;> exact ⟨by simp [positionResponse, Response.answers, ho], nofun⟩

theorem inRow_angle (b : Build) (e : Option Pos) : InRow b .readAngle (.angle (angleFor b e)) :=
  ⟨rfl, by rintro _ ⟨⟩; exact angleFor_fmt b e⟩

/-- A micro-step delivers no response, or one in its operation's row, and is then in IDLE. -/
theorem Micro.response {i : Instr} {s t : State} (h : Micro i s t) :
    t.cur.resp = s.cur.resp ∨
      ∃ r, t.cur.resp = s.cur.resp ++ [r] ∧ t.cur.phase = .idle ∧ InRow s.build (opOf i) r := by
  cases h with
  | @answer _ _ r rest hi =>
    cases r with
    | ok level => exact .inl rfl
    | err e => exact .inr ⟨_, rfl, rfl, inRow_pinFail hi e⟩
  | endSample => exact .inr ⟨_, rfl, rfl, rfl, nofun⟩
  | position hi =>
    refine .inr ⟨_, rfl, rfl, inRow_positionResponse ?_ _⟩
    obtain ⟨c, rfl, -⟩ | rfl := hi
    exacts [.inl rfl, .inr rfl]
  | angle => exact .inr ⟨_, rfl, rfl, inRow_angle _ _⟩
  | _ => exact .inl rfl

/-! The rows of R77, one for each operation. -/

theorem answers_lookup {r : Response} :
    r.answers .lookup = true ↔ (∃ p, r = .posSome p) ∨ r = .posNone := by
  cases r <;> simp [Response.answers]

theorem answers_read {r : Response} :
    r.answers .read = true ↔ (∃ p, r = .posSome p) ∨ r = .posNone ∨ ∃ e, r = .pinFail e := by
  cases r <;> simp [Response.answers]

theorem answers_readAngle {r : Response} :
    r.answers .readAngle = true ↔ (∃ a, r = .angle a) ∨ ∃ e, r = .pinFail e := by
  cases r <;> simp [Response.answers]

theorem answers_sample {r : Response} :
    r.answers .sample = true ↔ (∃ c, r = .code c) ∨ ∃ e, r = .pinFail e := by
  cases r <;> simp [Response.answers]

/-- Settles O33: the response of a micro-step is in its operation's row. -/
theorem responsesStayInTheirRow : Obligations.ResponsesStayInTheirRow := by
  intro i s t h
  refine (exec_next h).response.imp_right ?_
  rintro ⟨r, hresp, hidle, hrow, hfmt⟩
  refine ⟨r, hresp, hidle, ?_⟩
  cases i with
  | lookup c => exact answers_lookup.mp hrow
  | read => exact answers_read.mp hrow
  | readAngle => exact (answers_readAngle.mp hrow).imp_left fun ⟨a, ha⟩ => ⟨a, ha, hfmt a ha⟩
  | sample => exact answers_sample.mp hrow

/-! ### The step that accepts a request (R75, R76) -/

theorem exec_accept (i : Instr) {s : State} (hp : s.cur.phase = .idle) (ht : s.cur.torn = false) :
    ∃ t, exec i s = .next t ∧ t.cur.phase ≠ .idle ∧ t.cur.inProgress = i := by
  by_cases hi : ∀ c, i ≠ .lookup c
  · exact ⟨_, samplingOpsAreAccepted i s hi hp ht, nofun, inProgress_of_op hi rfl⟩
  · obtain ⟨c, rfl⟩ := not_forall_not.mp hi
    exact ⟨_, lookupIsAccepted c s hp ht, nofun, rfl⟩

/-- Settles O13: the operation in progress is the decoded one, so op_r and, for LOOKUP, code_r are the fields. -/
theorem acceptanceDecodesTheWord : Obligations.AcceptanceDecodesTheWord := by
  intro s w rest hp ht hr hin
  obtain ⟨o, c, rfl⟩ := exists_eq_bits_append w
  obtain ⟨t, hnext, hbusy, hprog⟩ :=
    exec_accept (decode (o.bits ++ c)) (s := { s with cur := { s.cur with req := rest } }) hp ht
  have hop : t.cur.opR = o := by rw [← opOf_inProgress, hprog, decode_bits_append, opOf_instr]
  refine ⟨t, (step_accept hp ht hr (.inl hin)).trans hnext, ?_, fun hl => ?_, hbusy, hprog, (exec_frame hnext).req⟩
  · rw [hop]
    exact (reqOp_append _ _).symm
  · obtain rfl : o = .lookup := Op.bits_injective ((reqOp_append _ c).symm.trans hl)
    rw [inProgress_eq_instr, hop, decode_bits_append] at hprog
    exact (Instr.lookup.inj hprog).trans (reqCode_append _ c).symm

/-! ### A busy decoder and its REQ channel (R76, R234) -/

/-- While an operation is in progress, another instruction waits. -/
theorem exec_busy_of_ne {i : Instr} {s : State} (hp : s.cur.phase ≠ .idle) (hi : s.cur.inProgress ≠ i) :
    exec i s = .next s := by
  have hop (hl : ∀ c, i ≠ .lookup c) : s.cur.opR ≠ opOf i := fun ho => hi (inProgress_of_op hl ho)
  cases i with
  | read | readAngle =>
    simp only [exec, execRead, execReadAngle]
    split
    · contradiction
    · exact if_neg (hop nofun)
    · exact if_neg (hop nofun)
  | sample =>
    simp only [exec, execSample]
    split
    · contradiction
    · exact if_neg (hop nofun)
    · rfl
  | lookup c =>
    simp only [exec, execLookup]
    split
    · contradiction
    · rfl
    · refine if_neg fun ⟨ho, hc⟩ => hi ?_
      rw [inProgress_eq_instr, ho, hc, Op.instr]

theorem step_offer {s : State} {w : ReqWord} {rest : List Input} (hin : s.inputs = .offer w :: rest) :
    step s = .next (offerRequest w { s with inputs := rest }) := by
  simp [step, nextAction, hin]

/-- Settles O34: an offer is a step of its own, which appends the word. -/
theorem busyInstanceLetsRequestsWait : Obligations.BusyInstanceLetsRequestsWait :=
  ⟨fun _ _ => exec_busy_of_ne, fun _ _ _ => step_offer⟩

/-! ### What a step runs (R27, R75, R76) -/

theorem ownMove_idle {s : State} {w : ReqWord} {rest : List ReqWord} (hp : s.cur.phase = .idle)
    (ht : s.cur.torn = false) (hr : s.cur.req = w :: rest) :
    ownMove s = .run (decode w) { s with cur := { s.cur with req := rest } } := by
  simp [ownMove, hp, ht, hr]

theorem ownMove_busy {s : State} (hp : s.cur.phase ≠ .idle) : ownMove s = .run s.cur.inProgress s := by
  unfold ownMove
  split
  · contradiction
  · rfl
  · rfl

theorem step_tick {s u : State} {i : Instr} {later : List Input} (hin : s.inputs = .tick :: later)
    (hout : s.cur.outstanding = false) (hown : ownMove { s with inputs := later } = .run i u) :
    step s = exec i u := by
  simp [step, nextAction, hin, tickMove, hout, hown]

theorem step_tick_waits {s : State} {later : List Input} (hin : s.inputs = .tick :: later)
    (hout : s.cur.outstanding = true) : step s = .next { s with inputs := later } := by
  simp [step, nextAction, hin, tickMove, hout]

theorem outstanding_of_idle {d : Decoder} (hp : d.phase = .idle) : d.outstanding = false := by
  simp [Decoder.outstanding, hp]

theorem step_tick_accept {s : State} {w : ReqWord} {rest : List ReqWord} {later : List Input}
    (hp : s.cur.phase = .idle) (ht : s.cur.torn = false) (hr : s.cur.req = w :: rest)
    (hin : s.inputs = .tick :: later) :
    step s = exec (decode w) { s with cur := { s.cur with req := rest }, inputs := later } :=
  step_tick hin (outstanding_of_idle hp) (ownMove_idle hp ht hr)

/-- Settles O35: acceptance and the operation in progress, with nothing due outside, at a tick, and at the answer. -/
theorem stepRunsTheDecodedRequest : Obligations.StepRunsTheDecodedRequest := by
  refine ⟨fun s w rest later hp ht hr => ⟨fun hin => ?_, step_tick_accept hp ht hr⟩,
    fun s later hp => ⟨fun hin => ?_, fun hin hout => ?_, step_tick_waits⟩,
    fun s r later hout hin => ?_, fun s n w hw => ?_⟩
  · exact step_accept hp ht hr (.inl hin)
  · exact step_busy hp (.inl hin)
  · exact step_tick hin hout (ownMove_busy hp)
  · obtain ⟨hp, -⟩ := (outstanding_iff _).mp hout
    exact step_busy (by simp [hp]) (.inr ⟨_, r, later, hin, fun _ => rfl⟩)
  · rw [State.withFetchWord, if_pos hw]
    exact step_tick_accept rfl rfl rfl rfl

end Sys2Proof.Machine
end

section
namespace Sys2Proof.Config

/-- Each of the 256 codes that is not valid is invalid (R101). -/
theorem TableOk.count_invalid {t : Code → Option Pos} (h : TableOk t) :
    ((List.range 256).filter fun c => (t (BitVec.ofNat 8 c)).isNone).length = 128 := by
  have hsplit := List.length_eq_length_filter_add (l := List.range 256) fun c => (t (BitVec.ofNat 8 c)).isSome
  simp only [h.count, List.length_range, Option.not_isSome] at hsplit
  omega

end Sys2Proof.Config

namespace Sys2Proof.Machine

/-! ### RomRead and the table (R25, R101 to R105) -/

/-- The position of a word is its low seven bits (R105). -/
theorem romRead_eq_setWidth (m : Memory) (c : Code) : romRead m c =
    if (Memory.read m c.toNat).getLsbD 7 then some ((Memory.read m c.toNat).setWidth 7) else none := by
  rw [BitVec.setWidth_eq_extractLsb' (by decide)]
  rfl

/-- Settles O6: a word of the image is its entry's `romWord`, and the entry is read back from it. -/
theorem romReadReturnsTheTableEntry : Obligations.RomReadReturnsTheTableEntry :=
  ⟨romRead_eq_setWidth, read_romImage, romRead_romImage⟩

/-- Settles O7: the ROM after reset holds a table that meets R101 to R104, as the invariant says. -/
theorem resetRomMeetsTheTableRules : Obligations.ResetRomMeetsTheTableRules := by
  have ok : Config.TableOk (romRead State.reset.posRom) := State.Inv.table resetMeetsTheInvariant
  have zero_unique : ∀ c, romRead State.reset.posRom c = some 0#7 → c = 0#8 :=
    fun c hc => (ok.bijection 0#7).unique hc ok.code0
  exact ⟨ok.count, ok.count_invalid, ok.bijection, ok.code0, zero_unique, by decide, by decide, ok.code46⟩

/-! ### LOOKUP (R106) -/

/-- Settles O22: acceptance and the DECODE step make the whole operation. -/
theorem lookupWhole : Obligations.LookupWhole := fun _ _ _ h => h.lookup_completes

/-- A micro-step of LOOKUP stands still, accepts the request, or decodes (R27, R106). -/
theorem exec_lookup_cases {c : Code} {s t : State} (h : exec (.lookup c) s = .next t) :
    t = s ∨ t = { s with cur := { s.cur with opR := .lookup, codeR := c, phase := .decode } } ∨
      t = decodePosition s := by
  cases exec_next h with
  | stay => exact .inl rfl
  | acceptLookup => exact .inr (.inl rfl)
  | position => exact .inr (.inr rfl)
  | acceptSampling hi | issue hi | answer hi => exact absurd rfl (hi c)
  | endRead hi => simp at hi

@[simp] theorem pinReads_append_romRead (h : List Event) (n : Nat) (c : Code) :
    pinReads (h ++ [.romRead n c]) = pinReads h := by
  simp [pinReads]

/-- `t` agrees with `s` on everything that LOOKUP does not write, the sampler's registers among it; the history and
the responses have grown at most, by no pin read. -/
structure LookupStepFrame (s t : State) : Prop extends MicroFrame s t where
  acc : t.cur.acc = s.cur.acc
  k : t.cur.k = s.cur.k
  wait : t.cur.wait = s.cur.wait
  inputs : t.inputs = s.inputs
  hist : s.hist <+: t.hist
  noPinRead : pinReads t.hist = pinReads s.hist
  resp : s.cur.resp <+: t.cur.resp

theorem exec_lookup_frame {c : Code} {s t : State} (h : exec (.lookup c) s = .next t) : LookupStepFrame s t := by
  have hf := exec_frame h
  obtain rfl | rfl | rfl := exec_lookup_cases h
  · exact ⟨hf, rfl, rfl, rfl, rfl, List.prefix_rfl, rfl, List.prefix_rfl⟩
  · exact ⟨hf, rfl, rfl, rfl, rfl, List.prefix_rfl, rfl, List.prefix_rfl⟩
  · exact ⟨hf, rfl, rfl, rfl, rfl, List.prefix_append _ _, by simp, List.prefix_append _ _⟩

/-- Settles O42: none of LOOKUP's micro-steps writes more than op_r, code_r, phase, history and responses. -/
theorem lookupFrame : Obligations.LookupFrame := by
  intro c s t h
  have hl := exec_lookup_frame h
  exact ⟨hl.acc, hl.k, hl.wait, hl.id, hl.pins, hl.torn, hl.req, hl.stale, hl.build, fun a => by rw [hl.posRom],
    hl.others, hl.inputs, hl.hist, hl.noPinRead, hl.resp⟩

end Sys2Proof.Machine
end

section
namespace Sys2Proof.Machine

/-! ### Sampling a list of levels (R121, R124) -/

/-- Levels at the head of the answers are packed, one read for each. -/
theorem sampleAll_levels (levels : List Bool) (acc : Code) (n : Nat) (rs : List PinResult) :
    sampleAll acc (levels.length + n) (levels.map .ok ++ rs) = sampleAll (levels.foldl packStep acc) n rs := by
  induction levels generalizing acc with
  | nil => simp
  | cons level levels ih => simp [Nat.add_right_comm _ 1 n, sampleAll, ih]

theorem pinsComplete_levels (levels : List Bool) (n : Nat) (rs : List PinResult) :
    pinsComplete (levels.length + n) (levels.map .ok ++ rs) = pinsComplete n rs := by
  induction levels with
  | nil => simp
  | cons level levels ih => simp [Nat.add_right_comm _ 1 n, pinsComplete, ih]

/-- Eight levels are what eight reads draw, and sampling comes to their code. -/
@[simp] theorem sampleAll_eight_levels (v : Vector Bool 8) :
    sampleAll 0#8 8 (v.toList.map .ok) = some (.ok (pack v.toList)) := by
  simpa [sampleAll, pack] using sampleAll_levels v.toList 0#8 0 []

@[simp] theorem pinsComplete_eight_levels (v : Vector Bool 8) : pinsComplete 8 (v.toList.map .ok) = true := by
  simpa [pinsComplete] using pinsComplete_levels v.toList 0 []

/-- Settles O23: the operation read as one piece responds the code, and the micro-steps refine it. -/
theorem sampleWhole : Obligations.SampleWhole := by
  intro v s rest h
  obtain ⟨r, hresponse, hcomp⟩ :=
    microStepsRefineTheOperation .sample s rest _ h (pinsComplete_eight_levels v)
  obtain rfl : .code (pack v.toList) = r := by simpa [responseOf] using hresponse
  exact hcomp

/-! ### The frame of the instructions that sample (R125, R140, R165) -/

/-- Only LOOKUP's acceptance and the end of READ's and READ_ANGLE's sampling write code_r (R27, R123). -/
theorem Micro.codeR_of_sample {s t : State} (h : Micro .sample s t) : t.cur.codeR = s.cur.codeR := by
  cases h with
  | @answer _ _ r => cases r <;> rfl
  | endRead hi => simp at hi
  | position hi => simp at hi
  | _ => rfl

theorem Micro.hist_prefix {i : Instr} {s t : State} (h : Micro i s t) : s.hist <+: t.hist := by
  cases h with
  | answer => simp
  | issue | position | angle => exact List.prefix_append _ _
  | _ => exact List.prefix_rfl

theorem Micro.resp_prefix {i : Instr} {s t : State} (h : Micro i s t) : s.cur.resp <+: t.cur.resp := by
  obtain hresp | ⟨r, hresp⟩ := h.resp
  · rw [hresp]
  · exact ⟨[r], hresp.symm⟩

/-- Of what is due outside, a micro-step takes at most the answer of the selected pin (R54, R121). -/
theorem Micro.inputs {i : Instr} {s t : State} (h : Micro i s t) :
    t.inputs = s.inputs ∨ ∃ r, s.inputs = .answer s.cur.pin r :: t.inputs := by
  cases h with
  | @answer _ _ r rest _ _ _ _ _ hin => exact .inr ⟨r, by rw [hin, deliverAnswer_inputs]⟩
  | _ => exact .inl rfl

/-- Settles O41: no micro-step writes more, and none of SAMPLE's writes code_r. -/
theorem samplingOpsFrame : Obligations.SamplingOpsFrame := by
  intro i s t _ h
  have hm := exec_next h
  have hf := hm.frame
  exact ⟨hf.id, hf.pins, hf.torn, hf.req, hf.stale, fun hi => (hi ▸ hm).codeR_of_sample, hf.build,
    fun a => by rw [hf.posRom], hf.others, hm.hist_prefix, hm.resp_prefix, hm.inputs⟩

end Sys2Proof.Machine
end

section
namespace Sys2Proof.Machine

/-! ### READ (R140) -/

/-- An instruction that samples comes, on eight levels, to the response that it has when it is read as one piece. -/
theorem Ready.levels_complete {i : Instr} {s : State} {rest : List ReqWord} {v : Vector Bool 8} {r : Response}
    (h : Ready s i rest (v.toList.map .ok)) (hi : ∀ c, i ≠ .lookup c)
    (hr : responseOf s.build s.posRom i (v.toList.map .ok) = some r) :
    Completes s i rest (v.toList.map .ok) r (accessesOf s i (v.toList.map .ok)) := by
  obtain ⟨r', hr', hcomp⟩ := h.sampling_completes hi (pinsComplete_eight_levels v)
  obtain rfl : r = r' := Option.some.inj (hr.symm.trans hr')
  exact hcomp

/-- READ on eight levels responds the ROM's entry at the packed code. -/
theorem responseOf_read_levels (b : Build) (rom : Memory) (v : Vector Bool 8) :
    responseOf b rom .read (v.toList.map .ok) = some (positionResponse (romRead rom (pack v.toList))) := by
  simp [responseOf]

theorem accessesOf_read_levels (s : State) (v : Vector Bool 8) :
    accessesOf s .read (v.toList.map .ok) = [.romRead s.cur.id (pack v.toList)] := by
  simp [accessesOf]

/-- Settles O24: READ read as one piece makes one ROM read, at the packed code, and responds its entry. -/
theorem readWhole : Obligations.ReadWhole := by
  intro v s rest h
  have hcomp := h.levels_complete nofun (responseOf_read_levels _ _ v)
  rwa [accessesOf_read_levels] at hcomp

end Sys2Proof.Machine
end

section
namespace Sys2Proof.Machine

/-! ### READ_ANGLE (R165) -/

/-- READ_ANGLE on eight levels responds the angle for the ROM's entry at the packed code. -/
theorem responseOf_readAngle_levels (b : Build) (rom : Memory) (v : Vector Bool 8) :
    responseOf b rom .readAngle (v.toList.map .ok) = some (.angle (angleFor b (romRead rom (pack v.toList)))) := by
  simp [responseOf]

theorem accessesOf_readAngle_levels (s : State) (v : Vector Bool 8) :
    accessesOf s .readAngle (v.toList.map .ok) =
      angleAccesses s.cur.id (pack v.toList) (romRead s.posRom (pack v.toList)) := by
  simp [accessesOf]

/-- Settles O25: READ_ANGLE read as one piece responds `angleFor` of the entry, which is AngleOf of a position and
the fallback angle for an invalid code. -/
theorem readAngleWhole : Obligations.ReadAngleWhole := by
  intro v s rest h
  have hcomp := h.levels_complete nofun (responseOf_readAngle_levels _ _ v)
  rw [accessesOf_readAngle_levels] at hcomp
  constructor
  · intro p hrom
    rwa [hrom, angleFor, angleUnit_eq_angleOf, angleAccesses] at hcomp
  · intro hrom
    rwa [hrom, angleFor, angleAccesses] at hcomp

/-! ### The angle ROM (R26, R167) -/

@[simp] theorem angleRom_length (f : AngleFmt) (v : AngleConv) : (angleRom f v).length = 128 := by
  simp [angleRom]

theorem angleRom_getElem? (f : AngleFmt) (v : AngleConv) (p : Pos) :
    (angleRom f v)[p.toNat]? = some (angleOf f v p) := by
  have hp : p.toNat < 128 := p.isLt
  simp [angleRom, hp]

/-- Settles O57: the ROM holds AngleOf(p) at p, and the unit delivers it, however it is built. -/
theorem romAndMultiplierAgree : Obligations.RomAndMultiplierAgree :=
  ⟨angleRom_length, angleRom_getElem?, angleUnit_eq_angleOf⟩

end Sys2Proof.Machine
end

section
namespace Sys2Proof.Machine

/-! ### The error of one rounding (R11, R160)

`roundRat` rounds at the unit 2^(e - scaleFor prec num den), which the size of the exact value fixes. -/

theorem exact_eq_scaled (prec num den : Nat) (e : Int) : (num : ℚ) / den * 2 ^ e =
    scaledQuotient prec num den * 2 ^ (e - scaleFor prec num den) := by
  rw [scaledQuotient, mul_assoc, ← zpow_add₀ two_ne_zero, add_sub_cancel]

section Unit

variable {prec num den : Nat} (hn : 0 < num) (hd : 0 < den) {e j : Int}
include hn hd

/-- An exact value below 2^j is rounded at a unit of at most 2^(j - prec). -/
theorem roundUnit_le (h : (num : ℚ) / den * 2 ^ e < 2 ^ j) : e - scaleFor prec num den ≤ j - prec := by
  have hlow := (scaledQuotient_bounds (prec := prec) hn hd).1
  rw [exact_eq_scaled prec] at h
  have hpow : (2 : ℚ) ^ ((prec : ℤ) - 1 + (e - scaleFor prec num den)) < 2 ^ j := by
    rw [zpow_add₀ two_ne_zero]
    exact (mul_le_mul_of_nonneg_right hlow (by positivity)).trans_lt h
  have := (zpow_lt_zpow_iff_right₀ one_lt_two).mp hpow
  omega

/-- An exact value of at least 2^j is rounded at a unit above 2^(j - prec). -/
theorem lt_roundUnit (h : (2 : ℚ) ^ j ≤ (num : ℚ) / den * 2 ^ e) : j - prec < e - scaleFor prec num den := by
  have hhigh := (scaledQuotient_bounds (prec := prec) hn hd).2
  rw [exact_eq_scaled prec] at h
  have hpow : (2 : ℚ) ^ j < 2 ^ (prec + (e - scaleFor prec num den)) := by
    rw [zpow_add₀ two_ne_zero]
    exact h.trans_lt (mul_lt_mul_of_pos_right hhigh (by positivity))
  have := (zpow_lt_zpow_iff_right₀ one_lt_two).mp hpow
  omega

end Unit

/-- The value of a rounded number is within half a unit of the exact value, and the unit is at most 2^(j - prec)
for an exact value below 2^j. -/
theorem roundRat_value_error {prec : Nat} (hp : 2 ≤ prec) (neg : Bool) (num : Nat) {den : Nat} (hd : 0 < den)
    {e j : Int} (h : (num : ℚ) / den * 2 ^ e < 2 ^ j) :
    |(roundRat prec neg num den e).value - (if neg then -1 else 1) * ((num : ℚ) / den * 2 ^ e)|
      ≤ 2 ^ (j - prec - 1) := by
  rcases Nat.eq_zero_or_pos num with rfl | hn
  · simp [roundRat, Fp.value]; positivity
  · obtain ⟨hneg, -, -, hvalue, -⟩ := roundRat_spec hp hn hd neg e
    have hsign : |(if neg then -1 else 1 : ℚ)| = 1 := by cases neg <;> simp
    rw [Fp.value, hneg, mul_assoc, hvalue, ← mul_sub, abs_mul, hsign, one_mul, abs_sub_comm, exact_sub_eq]
    calc _ ≤ 1 / 2 * (2 : ℚ) ^ (e - scaleFor prec num den) := by gcongr; exact (scaledRound_error hd).1
      _ ≤ 1 / 2 * 2 ^ (j - prec) := by
        have hunit := roundUnit_le (prec := prec) hn hd h
        gcongr
        exact one_le_two
      _ = 2 ^ (j - prec - 1) := by rw [zpow_sub_one₀ two_ne_zero]; ring

theorem two_le_fmtPrec (f : AngleFmt) : 2 ≤ fmtPrec f := by
  cases f <;> decide

theorem mul_value (a b : Fp) : a.value * b.value = (if xor a.neg b.neg then -1 else 1) *
    (((a.man * b.man : Nat) : ℚ) / (1 : Nat) * 2 ^ (a.exp + b.exp)) := by
  simp only [Fp.value, zpow_add₀ (two_ne_zero (α := ℚ))]
  cases a.neg <;> cases b.neg <;> simp <;> ring

theorem abs_mul_value (a b : Fp) :
    ((a.man * b.man : Nat) : ℚ) / (1 : Nat) * 2 ^ (a.exp + b.exp) = |a.value * b.value| := by
  rw [mul_value]
  cases xor a.neg b.neg <;> simp [abs_of_nonneg]

/-- The product is rounded once. -/
theorem mulF_value_error (f : AngleFmt) {a b : Fp} {j : Int} (h : |a.value * b.value| < 2 ^ j) :
    |(mulF f a b).value - a.value * b.value| ≤ 2 ^ (j - fmtPrec f - 1) := by
  rw [← abs_mul_value] at h
  rw [mul_value]
  exact roundRat_value_error (two_le_fmtPrec f) _ _ one_pos h

theorem Fp.signedAt_value {e : Int} {x : Fp} (h : e ≤ x.exp) : (x.signedAt e : ℚ) * 2 ^ e = x.value := by
  have hpow : (2 : ℚ) ^ x.exp = 2 ^ (x.exp - e).toNat * 2 ^ e := by
    rw [← zpow_natCast, Int.toNat_of_nonneg (sub_nonneg.mpr h), ← zpow_add₀ two_ne_zero, sub_add_cancel]
  rw [Fp.signedAt, Fp.value, hpow]
  push_cast
  ring

/-- The exact difference that `subF` rounds. -/
def signedDiff (a b : Fp) : Int := a.signedAt (min a.exp b.exp) - b.signedAt (min a.exp b.exp)

theorem subF_eq (f : AngleFmt) (a b : Fp) : subF f a b = roundRat (fmtPrec f) (decide (signedDiff a b < 0))
    (signedDiff a b).natAbs 1 (min a.exp b.exp) := rfl

theorem signedDiff_value (a b : Fp) : (signedDiff a b : ℚ) * 2 ^ min a.exp b.exp = a.value - b.value := by
  rw [signedDiff, ← Fp.signedAt_value (min_le_left a.exp b.exp), ← Fp.signedAt_value (min_le_right a.exp b.exp)]
  push_cast
  ring

theorem natAbs_signedDiff_value (a b : Fp) :
    ((signedDiff a b).natAbs : ℚ) / (1 : Nat) * 2 ^ min a.exp b.exp = |a.value - b.value| := by
  rw [← signedDiff_value, abs_mul, abs_of_pos (a := (2 : ℚ) ^ _) (by positivity), Nat.cast_one, div_one,
    Nat.cast_natAbs, Int.cast_abs]

/-- The difference is rounded once. -/
theorem subF_value_error (f : AngleFmt) {a b : Fp} {j : Int} (h : |a.value - b.value| < 2 ^ j) :
    |(subF f a b).value - (a.value - b.value)| ≤ 2 ^ (j - fmtPrec f - 1) := by
  have hsign : (if decide (signedDiff a b < 0) then -1 else 1 : ℚ) * |a.value - b.value| = a.value - b.value := by
    rw [← signedDiff_value, abs_mul, abs_of_pos (a := (2 : ℚ) ^ _) (by positivity)]
    by_cases hneg : signedDiff a b < 0
    · simp [hneg, abs_of_neg (Int.cast_lt_zero.mpr hneg : (signedDiff a b : ℚ) < 0)]
    · simp [hneg, abs_of_nonneg (Int.cast_nonneg (not_lt.mp hneg) : (0 : ℚ) ≤ signedDiff a b)]
  have herror := roundRat_value_error (two_le_fmtPrec f) (decide (signedDiff a b < 0)) (signedDiff a b).natAbs
    one_pos ((natAbs_signedDiff_value a b).trans_lt h)
  rwa [natAbs_signedDiff_value, hsign] at herror

/-! ### The bit pattern of a number (R57, R160) -/

/-- The format has the number as a normal one: a full significand, and an exponent that fits its field. -/
structure Fp.Normal (f : AngleFmt) (x : Fp) : Prop where
  man_ge : 2 ^ (fmtPrec f - 1) ≤ x.man
  man_lt : x.man < 2 ^ fmtPrec f
  exp_ge : 1 ≤ x.exp + fmtBias f + fmtPrec f - 1
  exp_le : x.exp + fmtBias f + fmtPrec f - 1 ≤ 2 * fmtBias f

/-- The exponent field. -/
def Fp.biasedExp (f : AngleFmt) (x : Fp) : Nat := (x.exp + fmtBias f + fmtPrec f - 1).toNat

theorem Fp.Normal.biasedExp_bounds {f : AngleFmt} {x : Fp} (h : x.Normal f) :
    1 ≤ x.biasedExp f ∧ x.biasedExp f < 2 ^ fmtExpBits f := by
  have hbias : 2 * fmtBias f < 2 ^ fmtExpBits f := by cases f <;> decide
  obtain ⟨-, -, hexp, hexp'⟩ := h
  unfold Fp.biasedExp
  omega

/-- The exponent is found again in its field. -/
theorem Fp.Normal.exp_eq {f : AngleFmt} {x : Fp} (h : x.Normal f) :
    (x.biasedExp f : Int) - fmtBias f - (fmtPrec f - 1 : Nat) = x.exp := by
  have hprec := two_le_fmtPrec f
  obtain ⟨-, -, hexp, -⟩ := h
  unfold Fp.biasedExp
  omega

/-- The fields of a normal number's pattern: sign, biased exponent, fraction. -/
theorem Fp.Normal.pattern_eq {f : AngleFmt} {x : Fp} (h : x.Normal f) :
    x.pattern f = (x.neg.toNat * 2 ^ fmtExpBits f + x.biasedExp f) * 2 ^ (fmtPrec f - 1) +
      (x.man - 2 ^ (fmtPrec f - 1)) := by
  have hprec := two_le_fmtPrec f
  have hman : x.man ≠ 0 := ((Nat.two_pow_pos _).trans_le h.man_ge).ne'
  rw [Fp.pattern, if_neg hman, Nat.add_sub_assoc (by omega), Nat.pow_add, Nat.add_mul, Fp.biasedExp]
  cases x.neg <;> simp

/-- The pattern has as many bits as the format, and its fields are what `Fp.ofPattern` takes from it. -/
theorem Fp.Normal.pattern_fields {f : AngleFmt} {x : Fp} (h : x.Normal f) :
    x.pattern f < 2 ^ (fmtExpBits f + fmtPrec f) ∧
      x.pattern f % 2 ^ (fmtPrec f - 1) = x.man - 2 ^ (fmtPrec f - 1) ∧
      x.pattern f / 2 ^ (fmtPrec f - 1) % 2 ^ fmtExpBits f = x.biasedExp f ∧
      x.pattern f / 2 ^ (fmtExpBits f + fmtPrec f - 1) % 2 = x.neg.toNat := by
  obtain ⟨-, hex⟩ := h.biasedExp_bounds
  have hsign := x.neg.toNat_lt
  rw [h.pattern_eq]
  obtain ⟨hman, hman', -, -⟩ := h
  generalize x.biasedExp f = ex at hex ⊢
  generalize x.neg.toNat = sign at hsign ⊢
  cases f <;> simp only [fmtPrec, fmtExpBits, Nat.reduceSub, Nat.reduceAdd, Nat.reducePow] at * <;> omega

/-- A normal number is read back from its pattern. -/
theorem Fp.Normal.ofPattern_pattern {f : AngleFmt} {x : Fp} (h : x.Normal f) :
    Fp.ofPattern f (x.pattern f) = x := by
  obtain ⟨-, hfrac, hfield, hsign⟩ := h.pattern_fields
  have hneg : decide (x.neg.toNat = 1) = x.neg := by cases x.neg <;> rfl
  have hex : x.biasedExp f ≠ 0 := by have := h.biasedExp_bounds; omega
  rw [Fp.ofPattern, hfrac, hfield, hsign, if_neg hex, hneg, h.exp_eq, Nat.add_sub_cancel' h.man_ge]

/-- The bit pattern of 0. -/
theorem zero_toAngle_value (f : AngleFmt) : ((⟨false, 0, 0⟩ : Fp).toAngle f).value = 0 := by
  cases f <;> simp [Fp.toAngle, Fp.pattern, Angle.value, Fp.ofPattern, Fp.value]

/-- A normal number is delivered as it is. -/
theorem Fp.Normal.toAngle_value {f : AngleFmt} {x : Fp} (h : x.Normal f) : (x.toAngle f).value = x.value := by
  have hlt := h.pattern_fields.1
  have hx := h.ofPattern_pattern
  cases f <;> simp only [Fp.toAngle, Angle.value, BitVec.toNat_ofNat] <;>
    rw [Nat.mod_eq_of_lt (by simpa [fmtExpBits, fmtPrec] using hlt), hx]

/-! A whole number times 2^e, rounded. -/

theorem lt_roundUnit_whole (prec : Nat) {num : Nat} (hn : 0 < num) (e : Int) :
    e - prec < e - scaleFor prec num 1 := by
  refine lt_roundUnit hn one_pos ?_
  rw [Nat.cast_one, div_one]
  exact le_mul_of_one_le_left (by positivity) (by exact_mod_cast hn)

/-- The exponent falls by less than the precision. -/
theorem roundRat_exp_gt {prec : Nat} (hp : 2 ≤ prec) (neg : Bool) {num : Nat} (hn : 0 < num) (e : Int) :
    e - prec < (roundRat prec neg num 1 e).exp :=
  (lt_roundUnit_whole prec hn e).trans_le (roundRat_spec hp hn one_pos neg e).2.2.1

/-- The exponent of a rounded number is that of the unit, or 1 more. -/
theorem roundRat_exp_le {prec : Nat} (neg : Bool) {num : Nat} (hn : 0 < num) (den : Nat) (e : Int) :
    (roundRat prec neg num den e).exp ≤ e - scaleFor prec num den + 1 := by
  rw [roundRat_eq prec neg den e hn]
  split_ifs <;> simp

/-- A rounded number is normal if its size is in the format's range. -/
theorem roundRat_normal (f : AngleFmt) (neg : Bool) {num : Nat} (hn : 0 < num) {e : Int} (hlow : 1 - fmtBias f ≤ e)
    (hhigh : (num : ℚ) / (1 : Nat) * 2 ^ e < 2 ^ (fmtBias f : Int)) :
    (roundRat (fmtPrec f) neg num 1 e).Normal f := by
  obtain ⟨-, ⟨hman, hman'⟩, -⟩ := roundRat_spec (two_le_fmtPrec f) hn one_pos neg e
  have hge := roundRat_exp_gt (two_le_fmtPrec f) neg hn e
  have hle := roundRat_exp_le (prec := fmtPrec f) neg hn 1 e
  have hunit := roundUnit_le (prec := fmtPrec f) hn one_pos hhigh
  exact ⟨hman, hman', by omega, by omega⟩

theorem roundRat_toAngle_value (f : AngleFmt) (neg : Bool) (num : Nat) {e : Int} (hlow : 1 - fmtBias f ≤ e)
    (hhigh : (num : ℚ) / (1 : Nat) * 2 ^ e < 2 ^ (fmtBias f : Int)) :
    ((roundRat (fmtPrec f) neg num 1 e).toAngle f).value = (roundRat (fmtPrec f) neg num 1 e).value := by
  rcases Nat.eq_zero_or_pos num with rfl | hn
  · simp [roundRat, zero_toAngle_value, Fp.value]
  · exact (roundRat_normal f neg hn hlow hhigh).toAngle_value

/-- A product in the format's range is delivered as it is. -/
theorem mulF_toAngle_value (f : AngleFmt) {a b : Fp} (hlow : 1 - fmtBias f ≤ a.exp + b.exp)
    (hhigh : |a.value * b.value| < 2 ^ (fmtBias f : Int)) : ((mulF f a b).toAngle f).value = (mulF f a b).value :=
  roundRat_toAngle_value f _ _ hlow ((abs_mul_value a b).trans_lt hhigh)

/-- A difference in the format's range is delivered as it is. -/
theorem subF_toAngle_value (f : AngleFmt) {a b : Fp} (hlow : 1 - fmtBias f ≤ min a.exp b.exp)
    (hhigh : |a.value - b.value| < 2 ^ (fmtBias f : Int)) : ((subF f a b).toAngle f).value = (subF f a b).value :=
  roundRat_toAngle_value f _ _ hlow ((natAbs_signedDiff_value a b).trans_lt hhigh)

theorem mulF_exp_gt (f : AngleFmt) {a b : Fp} (h : a.exp + b.exp < fmtPrec f) :
    a.exp + b.exp - fmtPrec f < (mulF f a b).exp := by
  rcases Nat.eq_zero_or_pos (a.man * b.man) with hzero | hpos
  · simp [mulF, roundRat, hzero, h]
  · exact roundRat_exp_gt (two_le_fmtPrec f) _ hpos _

end Sys2Proof.Machine
end

section
namespace Sys2Proof.Machine

/-! ### The constants of the angle unit (R161, R163) -/

theorem piF_sign_exp (f : AngleFmt) : (piF f).neg = false ∧ (piF f).exp = 2 - fmtPrec f := by
  cases f <;> decide

theorem angleStep_exp (f : AngleFmt) : (angleStep f).exp = -4 - fmtPrec f := by
  cases f <;> decide

theorem piF_value (f : AngleFmt) : (piF f).value = match f with
    | .binary64 => 7074237752028440 / 2 ^ 51
    | .binary32 => 13176795 / 2 ^ 22 := by
  cases f
  · rw [show piF .binary64 = ⟨false, 7074237752028440, -51⟩ by decide]
    norm_num [Fp.value]
  · rw [show piF .binary32 = ⟨false, 13176795, -22⟩ by decide]
    norm_num [Fp.value]

theorem angleStep_value (f : AngleFmt) : (angleStep f).value = match f with
    | .binary64 => 7129940411493231 / 2 ^ 57
    | .binary32 => 13280549 / 2 ^ 28 := by
  cases f
  · rw [show angleStep .binary64 = ⟨false, 7129940411493231, -57⟩ by decide]
    norm_num [Fp.value]
  · rw [show angleStep .binary32 = ⟨false, 13280549, -28⟩ by decide]
    norm_num [Fp.value]

/-- PI_F is within half a unit in the last place of π (R161). -/
theorem piF_error (f : AngleFmt) : |Real.pi - ((piF f).value : ℝ)| ≤ 2 ^ (1 - fmtPrec f : ℤ) := by
  have hlow := Real.pi_gt_d20
  have hhigh := Real.pi_lt_d20
  rw [piF_value, abs_le]
  cases f <;> norm_num [fmtPrec] <;> constructor <;> linarith

/-- 127 steps are as near to PI_F + π. -/
theorem angleStep_error (f : AngleFmt) :
    |127 * ((angleStep f).value : ℝ) - (piF f).value - Real.pi| ≤ 2 ^ (1 - fmtPrec f : ℤ) := by
  have hlow := Real.pi_gt_d20
  have hhigh := Real.pi_lt_d20
  rw [piF_value, angleStep_value, abs_le]
  cases f <;> norm_num [fmtPrec] <;> constructor <;> linarith

/-- A multiple of a unit that is within half a unit of a number is nearest to it. -/
theorem nearest_multiple {x u : ℝ} {d : ℤ} (hd : |x - d * u| ≤ u / 2) (m : ℤ) : |x - d * u| ≤ |x - m * u| := by
  by_cases hm : m = d
  · rw [hm]
  · have hgap : u ≤ |(m : ℝ) * u - d * u| := by
      rw [← sub_mul, abs_mul]
      have : (1 : ℝ) ≤ |(m : ℝ) - d| := by exact_mod_cast Int.one_le_abs (sub_ne_zero.mpr hm)
      exact (le_abs_self u).trans (le_mul_of_one_le_left (abs_nonneg u) this)
    have htri := abs_sub_le ((m : ℝ) * u) x (d * u)
    rw [abs_sub_comm ((m : ℝ) * u) x] at htri
    linarith

/-- No multiple of the unit in the last place of [2, 4) is nearer to π than PI_F. -/
theorem piF_nearest (f : AngleFmt) (m : ℤ) :
    |Real.pi - ((piF f).value : ℝ)| ≤ |Real.pi - (m : ℝ) * 2 ^ (2 - fmtPrec f : ℤ)| := by
  obtain ⟨hneg, hexp⟩ := piF_sign_exp f
  have hvalue : ((piF f).value : ℝ) = ((piF f).man : ℤ) * 2 ^ (2 - fmtPrec f : ℤ) := by
    simp [Fp.value, hneg, hexp]
  have herror := piF_error f
  rw [hvalue] at herror ⊢
  refine nearest_multiple (herror.trans_eq ?_) m
  rw [show (2 - fmtPrec f : ℤ) = 1 - fmtPrec f + 1 by ring, zpow_add_one₀ two_ne_zero]
  ring

/-- Settles O53: PI_F is a multiple of the unit within half a unit of π. -/
theorem piIsTheNearest : Obligations.PiIsTheNearest := ⟨piF_nearest .binary64, piF_nearest .binary32⟩

/-! ### AngleOf and the formula (R161) -/

theorem ofNat_value (n : Nat) : (Fp.ofNat n).value = n := by
  simp [Fp.ofNat, Fp.value]

/-- Rough bounds of the constants. -/
theorem piF_bounds (f : AngleFmt) : 3 ≤ (piF f).value ∧ (piF f).value ≤ 3.2 := by
  rw [piF_value]
  cases f <;> norm_num

theorem angleStep_bounds (f : AngleFmt) : 0 ≤ (angleStep f).value ∧ (angleStep f).value ≤ 0.05 := by
  rw [angleStep_value]
  cases f <;> norm_num

/-- The exact product of C and p, which BASE(p) rounds. -/
theorem exactBase_bounds (f : AngleFmt) (p : Pos) : 0 ≤ (angleStep f).value * (Fp.ofNat p.toNat).value ∧
    (angleStep f).value * (Fp.ofNat p.toNat).value ≤ 6.35 := by
  obtain ⟨hlow, hhigh⟩ := angleStep_bounds f
  have hp : (p.toNat : ℚ) ≤ 127 := by exact_mod_cast Nat.le_of_lt_succ p.isLt
  rw [ofNat_value]
  exact ⟨by positivity, (mul_le_mul hhigh hp (by positivity) (by norm_num)).trans_eq (by norm_num)⟩

theorem exactBase_lt (f : AngleFmt) (p : Pos) :
    |(angleStep f).value * (Fp.ofNat p.toNat).value| < 2 ^ (3 : ℤ) := by
  obtain ⟨hlow, hhigh⟩ := exactBase_bounds f p
  rw [abs_of_nonneg hlow]
  exact hhigh.trans_lt (by norm_num)

/-- BASE(p) is the product, rounded at a unit of at most 2^(3 - prec). -/
theorem angleBase_error (f : AngleFmt) (p : Pos) :
    |(angleBase f p).value - (angleStep f).value * p.toNat| ≤ 2 ^ (2 - fmtPrec f : ℤ) := by
  have h := mulF_value_error f (exactBase_lt f p)
  rw [ofNat_value] at h
  exact h.trans_eq (by congr 1; ring)

/-- The exact difference, which AngleOf rounds for CENTRED. -/
theorem exactCentred_lt (f : AngleFmt) (p : Pos) : |(angleBase f p).value - (piF f).value| < 2 ^ (2 : ℤ) := by
  have hunit : (2 : ℚ) ^ (2 - fmtPrec f : ℤ) ≤ 0.1 := by cases f <;> norm_num [fmtPrec]
  obtain ⟨herror, herror'⟩ := abs_le.mp (angleBase_error f p)
  have hbase := exactBase_bounds f p
  rw [ofNat_value] at hbase
  obtain ⟨hlow, hhigh⟩ := hbase
  obtain ⟨hpi, hpi'⟩ := piF_bounds f
  rw [abs_lt]
  constructor <;> norm_num at * <;> linarith

theorem exponent_in_range (f : AngleFmt) : 3 < fmtBias f ∧ 2 * fmtPrec f + 5 < fmtBias f := by
  cases f <;> decide

/-- The delivered bits stand for the rounded product, for ZERO_BASED. -/
theorem angleOf_zeroBased_value (f : AngleFmt) (p : Pos) :
    (angleOf f .zeroBased p).value = (angleBase f p).value := by
  obtain ⟨hbias, hbias'⟩ := exponent_in_range f
  refine mulF_toAngle_value f ?_ ((exactBase_lt f p).trans_le ?_)
  · simp [angleStep_exp, Fp.ofNat]; omega
  · exact zpow_le_zpow_right₀ one_le_two (by omega)

/-- The delivered bits stand for the rounded difference, for CENTRED. -/
theorem angleOf_centred_value (f : AngleFmt) (p : Pos) :
    (angleOf f .centred p).value = (subF f (angleBase f p) (piF f)).value := by
  obtain ⟨hbias, hbias'⟩ := exponent_in_range f
  have hstep : (angleStep f).exp + (Fp.ofNat p.toNat).exp = -4 - fmtPrec f := by simp [angleStep_exp, Fp.ofNat]
  have hbase := mulF_exp_gt f (a := angleStep f) (b := Fp.ofNat p.toNat) (by omega)
  have hpi := (piF_sign_exp f).2
  refine subF_toAngle_value f (le_min ?_ ?_) ((exactCentred_lt f p).trans_le ?_)
  · rw [angleBase]; omega
  · omega
  · exact zpow_le_zpow_right₀ one_le_two (by omega)

/-- The formula with PI_F and C for π and 2π / 127: at t = p / 127 its error is (1 - t) times the error at 0 and t
times the error at 127. -/
theorem exactCentred_error (f : AngleFmt) (p : Pos) :
    |(angleStep f).value * p.toNat - (piF f).value - (2 * Real.pi / 127 * p.toNat - Real.pi)|
      ≤ 2 ^ (1 - fmtPrec f : ℤ) := by
  have ht0 : (0 : ℝ) ≤ p.toNat / 127 := by positivity
  have ht1 : (p.toNat : ℝ) / 127 ≤ 1 :=
    (div_le_one (by norm_num)).mpr (by exact_mod_cast Nat.le_of_lt_succ p.isLt)
  generalize ht : (p.toNat : ℝ) / 127 = t at ht0 ht1
  have hp : (p.toNat : ℝ) = 127 * t := by rw [← ht]; ring
  calc _ = |(1 - t) * (Real.pi - (piF f).value) + t * (127 * (angleStep f).value - (piF f).value - Real.pi)| := by
        rw [hp]; congr 1; ring
    _ ≤ |(1 - t) * (Real.pi - (piF f).value)| + |t * (127 * (angleStep f).value - (piF f).value - Real.pi)| :=
        abs_add_le _ _
    _ = (1 - t) * |Real.pi - (piF f).value| + t * |127 * (angleStep f).value - (piF f).value - Real.pi| := by
        rw [abs_mul, abs_mul, abs_of_nonneg (sub_nonneg.mpr ht1), abs_of_nonneg ht0]
    _ ≤ (1 - t) * 2 ^ (1 - fmtPrec f : ℤ) + t * 2 ^ (1 - fmtPrec f : ℤ) := by
        have := sub_nonneg.mpr ht1
        gcongr
        exacts [piF_error f, angleStep_error f]
    _ = 2 ^ (1 - fmtPrec f : ℤ) := by ring

/-- The units in the last place of [4, 8) and [2, 4), in those of [1, 2). -/
theorem two_zpow_units (n : ℤ) : (2 : ℝ) ^ (2 - n) = 2 * 2 ^ (1 - n) ∧ (2 : ℝ) ^ (3 - n) = 4 * 2 ^ (1 - n) := by
  constructor
  · rw [show 2 - n = 1 + (1 - n) by ring, zpow_add₀ two_ne_zero, zpow_one]
  · rw [show 3 - n = 2 + (1 - n) by ring, zpow_add₀ two_ne_zero]
    norm_num

/-- A bound of a rational error, for the real number. -/
theorem abs_cast_le {x : ℚ} {j : ℤ} (h : |x| ≤ 2 ^ j) : |(x : ℝ)| ≤ 2 ^ j := by
  rw [← Rat.cast_abs, ← Rat.cast_ofNat, ← Rat.cast_zpow]
  exact Rat.cast_le.mpr h

/-- ZERO_BASED: the errors of the product's rounding and of the constants. -/
theorem angleOf_zeroBased_error (f : AngleFmt) (p : Pos) :
    |((angleOf f .zeroBased p).value : ℝ) - 2 * Real.pi / 127 * p.toNat| ≤ 2 ^ (3 - fmtPrec f : ℤ) := by
  have hround := abs_cast_le (angleBase_error f p)
  have hconst := exactCentred_error f p
  have hpi := piF_error f
  obtain ⟨htwo, hfour⟩ := two_zpow_units (fmtPrec f)
  rw [angleOf_zeroBased_value, hfour]
  push_cast at hround
  rw [htwo] at hround
  rw [abs_le] at *
  constructor <;> linarith

/-- CENTRED: the errors of both roundings and of the constants. -/
theorem angleOf_centred_error (f : AngleFmt) (p : Pos) :
    |((angleOf f .centred p).value : ℝ) - (2 * Real.pi / 127 * p.toNat - Real.pi)|
      ≤ 2 ^ (3 - fmtPrec f : ℤ) := by
  have hround := abs_cast_le (angleBase_error f p)
  have hsub := abs_cast_le (subF_value_error f (exactCentred_lt f p))
  have hconst := exactCentred_error f p
  obtain ⟨htwo, hfour⟩ := two_zpow_units (fmtPrec f)
  rw [angleOf_centred_value, hfour]
  push_cast at hround hsub
  rw [htwo] at hround
  rw [show (2 - fmtPrec f - 1 : ℤ) = 1 - fmtPrec f by ring] at hsub
  rw [abs_le] at *
  constructor <;> linarith

/-- Settles O56: the bounds are 2^(3 - prec), the unit in the last place of [4, 8). -/
theorem angleFollowsTheFormula : Obligations.AngleFollowsTheFormula := fun p =>
  ⟨angleOf_zeroBased_error .binary64 p, angleOf_centred_error .binary64 p,
    angleOf_zeroBased_error .binary32 p, angleOf_centred_error .binary32 p⟩

end Sys2Proof.Machine
end

section
namespace Sys2Proof.Machine

/-! ### The exception (R200, R201, R206) -/

/-- The sampler selects pin k at index k (R120). -/
theorem pin_eq_of_index {d : Decoder} {k : Pin} (hk : d.k.toNat = k.val) : d.pin = k :=
  Fin.ext ((pin_val (hk ▸ k.isLt)).trans hk)

/-- Settles O15: the answer step of the sampler, on Err(e). -/
theorem failedReadRaisesPinFail : Obligations.FailedReadRaisesPinFail := by
  intro i s k e rest hi hp ho hk hw hin
  obtain rfl := pin_eq_of_index hk
  exact exec_answer hi hp ho (hk ▸ s.cur.pin.isLt) hw hin

/-- An instruction that samples completes, on answers of which one is a failure, with that failure as its response
and no access (R122, R201). -/
theorem Ready.failure_completes {i : Instr} {s : State} {rest : List ReqWord} {rs : List PinResult} {e : PinErr}
    (h : Ready s i rest rs) (hi : ∀ c, i ≠ .lookup c) (hrs : pinsComplete 8 rs = true)
    (hfail : sampleAll 0#8 8 rs = some (.error e)) : Completes s i rest rs (.pinFail e) [] := by
  obtain ⟨r, hr, hcomp⟩ := h.sampling_completes hi hrs
  obtain rfl := Option.some.inj ((responseOf_fail _ _ hi hfail).symm.trans hr)
  rwa [accessesOf_fail hi hfail] at hcomp

/-- Settles O26: fewer than eight levels and a failure are all that the eight reads draw, and sampling comes to the
failure. -/
theorem firstFailureEndsTheOperation : Obligations.FirstFailureEndsTheOperation := by
  intro i levels e s rest hi hlen h
  obtain ⟨n, hn⟩ : ∃ n, 8 = levels.length + (n + 1) := ⟨7 - levels.length, by omega⟩
  have hcomplete := pinsComplete_levels levels (n + 1) [.err e]
  have hfail := sampleAll_levels levels 0#8 (n + 1) [.err e]
  rw [← hn] at hcomplete hfail
  exact h.failure_completes hi hcomplete hfail

/-! ### No fault (R22, R203)

The one fault of the model, samplerIndex, is the sampler's at an index above 8, which the invariant shuts out. -/

theorem noFault_of_next {o : Host.Outcome State Fault Refusal} (h : ∃ t, o = .next t) : NoFault o := by
  obtain ⟨t, rfl⟩ := h
  trivial

theorem samplingStep_noFault (atEnd : State → State) {s : State} (hk : s.cur.k.toNat ≤ 8) :
    NoFault (samplingStep atEnd s) := by
  obtain hlt | heq := hk.lt_or_eq
  · cases hw : s.cur.wait <;> simp [samplingStep, hlt, hw, NoFault]
  · simp [samplingStep, heq, NoFault]

/-- Under the decoder's invariant the operation that samples is not LOOKUP (R27). -/
theorem Decoder.Inv.inProgress_ne_lookup {d : Decoder} (h : d.Inv) (hp : d.phase = .sampling) (c : Code) :
    d.inProgress ≠ .lookup c :=
  fun hc => (h.sampling hp).1 (by rw [← opOf_inProgress, hc, opOf])

/-- In DECODE the operation in progress comes to its response, if it is one that looks up. -/
theorem exec_inProgress_decode {s : State} (hp : s.cur.phase = .decode) (ho : s.cur.opR ≠ .sample) :
    ∃ t, exec s.cur.inProgress s = .next t := by
  cases hop : s.cur.opR with
  | sample => exact absurd hop ho
  | read => exact ⟨_, by simpa [Decoder.inProgress, hop] using exec_read_decode hp hop⟩
  | readAngle => exact ⟨_, by simpa [Decoder.inProgress, hop] using exec_readAngle_decode hp hop⟩
  | lookup => exact ⟨_, by simpa [Decoder.inProgress, hop] using exec_lookup_decode hp hop⟩

/-- Under the decoder's invariant the operation in progress does not fault. -/
theorem exec_inProgress_noFault {s : State} (hs : s.cur.Inv) (hp : s.cur.phase ≠ .idle) :
    NoFault (exec s.cur.inProgress s) := by
  cases hphase : s.cur.phase with
  | idle => exact absurd hphase hp
  | sampling =>
    rw [exec_sampling (hs.inProgress_ne_lookup hphase) hphase (opOf_inProgress _).symm]
    exact samplingStep_noFault _ hs.index
  | decode => exact noFault_of_next (exec_inProgress_decode hphase (hs.decoding hphase))

/-- Under the decoder's invariant no instruction faults: it is accepted, goes on, or waits (R27, R76). -/
theorem exec_noFault (i : Instr) {s : State} (hs : s.cur.Inv) : NoFault (exec i s) := by
  by_cases hp : s.cur.phase = .idle
  · exact noFault_of_next (exec_idle_next i hp)
  · by_cases hi : s.cur.inProgress = i
    · exact hi ▸ exec_inProgress_noFault hs hp
    · exact noFault_of_next ⟨s, exec_busy_of_ne hp hi⟩

/-- Whatever a step is, it is no fault: only a micro-step of an instruction could be one. -/
theorem StepKind.noFault {s : State} {o : Host.Outcome State Fault Refusal} (h : StepKind s o) (hs : s.Inv) :
    NoFault o := by
  cases h with
  | accept w q l => exact exec_noFault _ (hs.of_channels q l).cur
  | proceed l => exact exec_noFault _ (hs.of_channels s.cur.req l).cur
  | _ => trivial

/-- Settles O46: a step by its kind, and an instruction by its micro-step. -/
theorem noFaultExists : Obligations.NoFaultExists :=
  fun s i hs => ⟨(step_kind s).noFault hs, exec_noFault i hs.cur⟩

end Sys2Proof.Machine
end

section
namespace Sys2Proof.Machine

/-! ### An instance at rest (R27, R76, R233)

In IDLE, with no request that it would accept, an instance has no move of its own. -/

theorem ownMove_rests {s : State} (hp : s.cur.phase = .idle) (hr : s.cur.req = [] ∨ s.cur.torn = true) :
    ownMove s = .settle (.next s) := by
  obtain hr | ht := hr
  · simp [ownMove, hp, hr]
  · simp [ownMove, hp, ht]

theorem canMove_rests {d : Decoder} (hp : d.phase = .idle) (hr : d.req = [] ∨ d.torn = true) :
    canMove d = false := by
  obtain hr | ht := hr
  · simp [canMove, hp, hr]
  · simp [canMove, hp, ht]

/-- An instance at rest stays so while nothing happens outside. -/
theorem run_rests {s : State} (hp : s.cur.phase = .idle) (hr : s.cur.req = [] ∨ s.cur.torn = true)
    (hin : s.inputs = []) (n : Nat) : run n s = .next s := by
  have hstep : step s = .next s := by simp [step, nextAction, hin, ownMove_rests hp hr]
  exact run_stay hstep n

/-- In IDLE a torn-down instance stands still, whatever the instruction (R233). -/
theorem exec_torn (i : Instr) {s : State} (hp : s.cur.phase = .idle) (ht : s.cur.torn = true) :
    exec i s = .next s := by
  by_cases hi : ∀ c, i ≠ .lookup c
  · rw [exec_idle hi hp, acceptSampling_torn _ ht]
  · obtain ⟨c, rfl⟩ := not_forall_not.mp hi
    rw [exec_lookup_idle hp, acceptLookup_torn c ht]

/-- Settles O39: a torn-down instance in IDLE is at rest, and teardown writes the release alone. -/
theorem tornDownInstanceAcceptsNothing : Obligations.TornDownInstanceAcceptsNothing :=
  ⟨fun _ n hp ht hin => run_rests hp (.inr ht) hin n,
    fun i _ hp ht => exec_torn i hp ht,
    fun _ _ hin => ⟨step_teardown hin, _, step_teardown hin, owned_of_torn rfl, rfl⟩⟩

/-! ### The end of a run (R238) -/

theorem not_ended_of_cur {s : State} (h : ¬ s.cur.ended) : ¬ s.ended :=
  fun hs => h (hs.2 s.cur (List.mem_cons_self ..))

theorem Ready.not_ended {i : Instr} {s : State} {rest : List ReqWord} {rs : List PinResult}
    (h : Ready s i rest rs) : ¬ s.ended := by
  obtain ⟨w, hreq, -⟩ := h.request
  exact not_ended_of_cur fun ⟨hnone, _⟩ => by simp [hreq] at hnone

/-- The last request's operation leaves its instance done, and so the run, if the other instances were done. -/
theorem Completes.ended {i : Instr} {s : State} {rs : List PinResult} {r : Response} {acc : List Event}
    (h : Completes s i [] rs r acc) (hothers : ∀ d ∈ s.others, d.ended) :
    ∃ t, run (stepsOf i rs) s = .next t ∧ t.ended := by
  obtain ⟨t, hrun, hidle, -, hreq, hin, -, -, -, hsame⟩ := h
  refine ⟨t, hrun, by simp [hin], fun d hd => ?_⟩
  obtain rfl | hd := List.mem_cons.mp hd
  · exact ⟨hreq, hidle, outstanding_of_idle hidle⟩
  · exact hothers d (hsame ▸ hd)

/-- Settles O31: the operation completes; a read that is not answered and an instance at rest keep the state. -/
theorem runEndsWithTheLastResponse : Obligations.RunEndsWithTheLastResponse := by
  refine ⟨fun i s rs h hrs hothers => ⟨h.not_ended, ?_⟩, fun s t n hout hin hrun => ?_,
    fun s w hw h => h.1 w hw, fun s t n hs hin hrun => ?_⟩
  · obtain ⟨r, -, hcomp⟩ := microStepsRefineTheOperation i s [] rs h hrs
    exact hcomp.ended hothers
  · cases (run_stay (step_waits hout hin) n).symm.trans hrun
    exact not_ended_of_cur fun ⟨_, _, hnone⟩ => by simp [hout] at hnone
  · obtain ⟨hreq, hidle, -⟩ := hs.2 s.cur (List.mem_cons_self ..)
    cases (run_rests hidle (.inl hreq) hin n).symm.trans hrun
    exact hs

end Sys2Proof.Machine
end

section
namespace Sys2Proof.Machine

/-! ### Reset and late answers (R205, R230, R231) -/

theorem step_reset {s : State} {rest : List Input} (hin : s.inputs = .reset :: rest) :
    step s = .next (resetInstance { s with inputs := rest }) := by
  simp [step, nextAction, hin]

theorem step_late {s : State} {k : Pin} {r : PinResult} {rest : List Input} (hin : s.inputs = .late k r :: rest)
    (hk : k ∈ s.cur.stale) : step s = .next (discardLate k { s with inputs := rest }) := by
  simp [step, nextAction, hin, hk]

/-- Settles O37: the two steps, and the read that becomes an abandoned one. -/
theorem resetAbandonsTheOperation : Obligations.ResetAbandonsTheOperation := by
  refine ⟨fun s rest hin => ⟨_, step_reset hin, rfl, rfl, rfl, rfl, rfl, rfl, rfl, rfl, rfl, rfl, rfl, ?_⟩,
    fun _ _ _ _ => step_late⟩
  cases hout : s.cur.outstanding <;> simp [hout]

/-! ### Answers that nobody asked for (R54, R239) -/

section Unasked

variable {s : State} {k : Pin} {r : PinResult} {rest : List Input}

theorem step_answer_otherPin (hin : s.inputs = .answer k r :: rest) (hout : s.cur.outstanding = true)
    (hk : k ≠ s.cur.pin) : step s = .refused .unaskedAnswer := by
  simp [step, nextAction, hin, answerMove, hout, hk]

theorem step_answer_rests (hin : s.inputs = .answer k r :: rest) (hp : s.cur.phase = .idle)
    (hr : s.cur.req = [] ∨ s.cur.torn = true) : step s = .refused .unaskedAnswer := by
  simp [step, nextAction, hin, answerMove, outstanding_of_idle hp, canMove_rests hp hr]

theorem step_late_unasked (hin : s.inputs = .late k r :: rest) (hk : k ∉ s.cur.stale) :
    step s = .refused .unaskedAnswer := by
  simp [step, nextAction, hin, hk]

end Unasked

/-- Settles O38: the three answers, one by one. -/
theorem unaskedAnswersHaveNoStep : Obligations.UnaskedAnswersHaveNoStep :=
  fun _ _ _ _ => ⟨step_answer_otherPin, step_answer_rests, step_late_unasked⟩

end Sys2Proof.Machine
end

section
namespace Sys2Proof.Machine

/-! ### Teardown during an operation (R76, R233)

No micro-step of an operation in progress reads the release of the pins, so `tearDown` commutes with each. -/

/-- An outcome whose next state, if there is one, is torn down. -/
def outcomeTornDown : Host.Outcome State Fault Refusal → Host.Outcome State Fault Refusal
  | .next s => .next (tearDown s)
  | .fault x => .fault x
  | .refused x => .refused x

@[simp] theorem outcomeTornDown_next (s : State) : outcomeTornDown (.next s) = .next (tearDown s) := rfl

@[simp] theorem deliverAnswer_tearDown (r : PinResult) (s : State) :
    deliverAnswer r (tearDown s) = tearDown (deliverAnswer r s) := by
  cases r <;> rfl

@[simp] theorem awaitAnswer_tearDown (s : State) : awaitAnswer (tearDown s) = tearDown (awaitAnswer s) := by
  have hpin : (tearDown s).cur.pin = s.cur.pin := rfl
  unfold awaitAnswer
  rw [tearDown_inputs, hpin]
  split
  · rename_i p r rest _
    split
    · exact deliverAnswer_tearDown r { s with inputs := rest }
    · rfl
  · rfl

/-- The sampler's micro-step commutes with teardown, if what ends the sampling does. -/
theorem samplingStep_tearDown {atEnd : State → State} (hEnd : ∀ s, atEnd (tearDown s) = tearDown (atEnd s))
    (s : State) : samplingStep atEnd (tearDown s) = outcomeTornDown (samplingStep atEnd s) := by
  have hissue : issueRead (tearDown s) = tearDown (issueRead s) := rfl
  simp only [samplingStep, tearDown_cur, awaitAnswer_tearDown, hissue, hEnd]
  split_ifs <;> rfl

/-- The operation in progress samples as it would without teardown. -/
theorem exec_tearDown_sampling (i : Instr) {s : State} (hp : s.cur.phase = .sampling) :
    exec i (tearDown s) = outcomeTornDown (exec i s) := by
  have hdecode := samplingStep_tearDown (atEnd := endToDecode) (fun _ => rfl) s
  have hcode := samplingStep_tearDown (atEnd := endToCode) (fun _ => rfl) s
  cases i <;> simp [exec, execRead, execReadAngle, execSample, execLookup, hp, hdecode, hcode,
    apply_ite outcomeTornDown]

/-- The operation in progress decodes as it would without teardown. -/
theorem exec_tearDown_decode (i : Instr) {s : State} (hp : s.cur.phase = .decode) :
    exec i (tearDown s) = outcomeTornDown (exec i s) := by
  have hposition : decodePosition (tearDown s) = tearDown (decodePosition s) := rfl
  have hangle : decodeAngle (tearDown s) = tearDown (decodeAngle s) := rfl
  cases i <;> simp [exec, execRead, execReadAngle, execSample, execLookup, hp, hposition, hangle,
    apply_ite outcomeTornDown]

/-- While an operation is in progress, an instruction's micro-step after teardown is the one without it, torn down. -/
theorem exec_tearDown (i : Instr) {s : State} (hp : s.cur.phase ≠ .idle) :
    exec i (tearDown s) = outcomeTornDown (exec i s) := by
  cases hphase : s.cur.phase with
  | idle => exact absurd hphase hp
  | sampling => exact exec_tearDown_sampling i hphase
  | decode => exact exec_tearDown_decode i hphase

/-- So is a step that does not pass the turn: a micro-step by `exec_tearDown`, and a move of the environment because
it does not read the release. -/
theorem step_tearDown {s : State} (hp : s.cur.phase ≠ .idle) (hturn : ∀ rest, s.inputs ≠ .rotate :: rest) :
    step (tearDown s) = outcomeTornDown (step s) := by
  have hbusy : (tearDown s).cur.phase ≠ .idle := hp
  cases hin : s.inputs with
  | nil =>
    rw [step_busy hp (.inl hin), step_busy hbusy (.inl hin)]
    exact exec_tearDown _ hp
  | cons m rest =>
    have hin' : (tearDown s).inputs = m :: rest := hin
    cases m with
    | rotate => exact absurd hin (hturn rest)
    | offer w => rw [step_offer hin, step_offer hin']; rfl
    | reset => rw [step_reset hin, step_reset hin']; rfl
    | teardown => rw [step_teardown hin, step_teardown hin']; rfl
    | late k r =>
      by_cases hk : k ∈ s.cur.stale
      · rw [step_late hin hk, step_late hin' hk]; rfl
      · rw [step_late_unasked hin hk, step_late_unasked hin' hk]; rfl
    | answer k r =>
      by_cases hasked : s.cur.outstanding = true → k = s.cur.pin
      · rw [step_busy hp (.inr ⟨k, r, rest, hin, hasked⟩), step_busy hbusy (.inr ⟨k, r, rest, hin', hasked⟩)]
        exact exec_tearDown _ hp
      · obtain ⟨hout, hk⟩ := Classical.not_imp.mp hasked
        rw [step_answer_otherPin hin hout hk, step_answer_otherPin hin' hout hk]
        rfl
    | tick =>
      cases hout : s.cur.outstanding with
      | true => rw [step_tick_waits hin hout, step_tick_waits hin' hout]; rfl
      | false =>
        rw [step_tick hin hout (ownMove_busy hp), step_tick hin' hout (ownMove_busy hbusy)]
        exact exec_tearDown (s := { s with inputs := rest }) _ hp

/-- Settles O40: teardown's own step, and its commuting with the micro-steps and the steps of a busy instance. -/
theorem teardownReleasesThePins : Obligations.TeardownReleasesThePins := by
  refine ⟨fun s rest hin => ⟨_, step_teardown hin, owned_of_torn rfl, rfl, rfl, rfl, rfl, rfl, rfl, rfl, rfl, rfl,
    rfl, rfl⟩, fun i s t hp h => ?_, fun s t hp hturn h => ?_⟩
  · rw [exec_tearDown i hp, h, outcomeTornDown_next]
  · rw [step_tearDown hp hturn, h, outcomeTornDown_next]

end Sys2Proof.Machine
end

section
namespace Sys2Proof.Config

/-! ### The positions of a table (R101, R102) -/

/-- The positions in the order of their codes are 0, ..., 127 in some order: each has exactly one code (R102). -/
theorem TableOk.positions_perm {t : Code → Option Pos} (h : TableOk t) :
    ((List.range 256).filterMap fun c => (t (BitVec.ofNat 8 c)).map (·.toNat)).Perm (List.range 128) := by
  have hcodes : ((List.range 256).map (BitVec.ofNat 8)).Nodup :=
    List.nodup_range.map_on fun a ha b hb hab => by
      rw [List.mem_range] at ha hb
      simpa [Nat.mod_eq_of_lt ha, Nat.mod_eq_of_lt hb] using congrArg BitVec.toNat hab
  have hposition {c : Code} {n : Nat} : (t c).map (·.toNat) = some n ↔ ∃ p, t c = some p ∧ p.toNat = n :=
    Option.map_eq_some_iff
  change (List.filterMap ((fun c => (t c).map (·.toNat)) ∘ BitVec.ofNat 8) _).Perm _
  rw [← List.filterMap_map]
  refine (List.perm_ext_iff_of_nodup (hcodes.filterMap fun c c' n hc hc' => ?_) List.nodup_range).mpr fun n => ?_
  · obtain ⟨p, hp, rfl⟩ := hposition.mp hc
    obtain ⟨q, hq, hqp⟩ := hposition.mp hc'
    rw [BitVec.eq_of_toNat_eq hqp] at hq
    exact (h.bijection p).unique hp hq
  · simp only [List.mem_filterMap, List.mem_range, hposition]
    constructor
    · rintro ⟨-, -, p, -, rfl⟩
      exact p.isLt
    · intro hn
      obtain ⟨c, hc, -⟩ := h.bijection (BitVec.ofNat 7 n)
      exact ⟨c, List.mem_map.mpr ⟨c.toNat, List.mem_range.mpr c.isLt, by simp⟩, _, hc, by simpa using hn⟩

end Sys2Proof.Config

namespace Sys2Proof.Machine

/-- Settles O8: the positions are 0, ..., 127 in some order. -/
theorem positionsSumTo8128 : Obligations.PositionsSumTo8128 := by
  have ok : Config.TableOk (romRead State.reset.posRom) := State.Inv.table resetMeetsTheInvariant
  calc _ = (List.range 128).sum := ok.positions_perm.sum_eq
    _ = 8128 := Finset.sum_range_id 128

end Sys2Proof.Machine
end

section
namespace Sys2Proof.Machine

/-! ### pack (R124) -/

/-- A step of the fold puts the level behind the bits there are, and drops the top one. -/
theorem packStep_eq_concat (acc : Code) (level : Bool) : packStep acc level = (acc.concat level).setWidth 8 := by
  refine BitVec.eq_of_getLsbD_eq fun j hj => ?_
  rw [getLsbD_packStep acc level hj]
  simp [BitVec.getLsbD_concat, hj]

theorem toNat_packStep (acc : Code) (level : Bool) :
    (packStep acc level).toNat = (acc.toNat * 2 + level.toNat) % 2 ^ 8 := by
  rw [packStep_eq_concat, BitVec.toNat_setWidth, BitVec.toNat_concat]

theorem pack_append (levels : List Bool) (level : Bool) : pack (levels ++ [level]) = packStep (pack levels) level :=
  List.foldl_concat ..

/-- After j levels the fold is below 2^j. -/
theorem pack_lt (levels : List Bool) : (pack levels).toNat < 2 ^ levels.length := by
  induction levels using List.reverseRecOn with
  | nil => simp [pack]
  | append_singleton l b ih =>
    rw [pack_append, List.length_append]
    exact packStep_lt ih b

/-- Up to eight levels no bit is dropped: the fold is Horner's rule at 2. -/
theorem toNat_pack {levels : List Bool} (h : levels.length ≤ 8) :
    (pack levels).toNat = levels.foldl (fun n b => n * 2 + b.toNat) 0 := by
  induction levels using List.reverseRecOn with
  | nil => simp [pack]
  | append_singleton l b ih =>
    rw [List.length_append, List.length_singleton] at h
    have hlt : (pack l).toNat < 2 ^ 7 :=
      (pack_lt l).trans_le (Nat.pow_le_pow_right two_pos (by omega))
    have hb := b.toNat_lt
    rw [pack_append, toNat_packStep, List.foldl_concat, ← ih (by omega)]
    omega

/-- The sum formula. -/
theorem toNat_pack_eq_sum (s0 s1 s2 s3 s4 s5 s6 s7 : Bool) : (pack [s0, s1, s2, s3, s4, s5, s6, s7]).toNat =
    s0.toNat * 2 ^ 7 + s1.toNat * 2 ^ 6 + s2.toNat * 2 ^ 5 + s3.toNat * 2 ^ 4 + s4.toNat * 2 ^ 3 +
      s5.toNat * 2 ^ 2 + s6.toNat * 2 ^ 1 + s7.toNat * 2 ^ 0 := by
  rw [toNat_pack (by simp)]
  simp only [List.foldl_cons, List.foldl_nil]
  ring

theorem toNat_append_ofBool {n : Nat} (x : BitVec n) (b : Bool) :
    (x ++ BitVec.ofBool b).toNat = x.toNat * 2 + b.toNat :=
  BitVec.toNat_concat x b

/-- The concatenation, with the first level as bit 7. -/
theorem pack_eq_concatenation (s0 s1 s2 s3 s4 s5 s6 s7 : Bool) : pack [s0, s1, s2, s3, s4, s5, s6, s7] =
    BitVec.ofBool s0 ++ BitVec.ofBool s1 ++ BitVec.ofBool s2 ++ BitVec.ofBool s3 ++ BitVec.ofBool s4 ++
      BitVec.ofBool s5 ++ BitVec.ofBool s6 ++ BitVec.ofBool s7 := by
  apply BitVec.eq_of_toNat_eq
  simp only [toNat_pack_eq_sum, toNat_append_ofBool, BitVec.toNat_ofBool]
  ring

/-- The eight levels that a code packs, handle k's in bit 7 - k (R57). -/
def snapshotOf (c : Code) : Vector Bool 8 := Vector.ofFn fun k => c.getLsbD (7 - k.val)

theorem pack_snapshotOf (c : Code) : pack (snapshotOf c).toList = c := by
  refine BitVec.eq_of_getLsbD_eq fun j hj => ?_
  have hbit := handleIsBitSevenMinusItself (snapshotOf c) ⟨7 - j, by omega⟩
  simpa [snapshotOf, Nat.sub_sub_self (show j ≤ 7 by omega)] using hbit

theorem snapshotOf_pack (v : Vector Bool 8) : snapshotOf (pack v.toList) = v := by
  ext k hk
  simpa [snapshotOf] using handleIsBitSevenMinusItself v ⟨k, hk⟩

/-- Settles O9: pack and `snapshotOf` are inverse to each other, and the fold is pack's definition. -/
theorem packIsBigEndian : Obligations.PackIsBigEndian :=
  ⟨fun s0 s1 s2 s3 s4 s5 s6 s7 =>
      ⟨toNat_pack_eq_sum s0 s1 s2 s3 s4 s5 s6 s7, pack_eq_concatenation s0 s1 s2 s3 s4 s5 s6 s7⟩,
    fun l _ => ⟨rfl, pack_lt l⟩,
    fun c => ⟨snapshotOf c, pack_snapshotOf c, fun v hv => by rw [← hv, snapshotOf_pack]⟩⟩

end Sys2Proof.Machine
end

section
namespace Sys2Proof.Machine

/-! ### The sampler's micro-steps (R121) -/

/-- Settles O14: the issue step, the answer step, and an answer on a channel that is not the selected one. -/
theorem samplerMicroSteps : Obligations.SamplerMicroSteps := by
  intro i s k hi hp ho hk
  obtain rfl := pin_eq_of_index hk
  have hlt : s.cur.k.toNat < 8 := hk ▸ s.cur.pin.isLt
  refine ⟨fun hw => exec_issue hi hp ho hlt hw, fun level rest hw hin => exec_answer hi hp ho hlt hw hin,
    fun e rest hw hin => exec_answer hi hp ho hlt hw hin, fun j r rest hw hj hin => ?_⟩
  exact step_answer_otherPin hin ((outstanding_iff _).mpr ⟨hp, hw, hlt⟩) hj

end Sys2Proof.Machine
end

section
namespace Sys2Proof.Machine

/-! ### One sampling for READ, SAMPLE and READ_ANGLE (R141, R166) -/

section OneSampling

variable {i : Instr} {s : State} {rest : List ReqWord} {rs : List PinResult} {r : Response} {acc : List Event}
variable (h : Ready s i rest rs) (hi : ∀ c, i ≠ .lookup c) (hrs : pinsComplete 8 rs = true)
include h hi hrs

/-- The response in which an operation completes is the one it has when it is read as one piece. -/
theorem Ready.responseOf_of_completes (hcomp : Completes s i rest rs r acc) :
    responseOf s.build s.posRom i rs = some r := by
  obtain ⟨r', hr', hcomp'⟩ := h.sampling_completes hi hrs
  rwa [hcomp.response_unique hcomp']

theorem Ready.completes_of_responseOf (hr : responseOf s.build s.posRom i rs = some r) :
    Completes s i rest rs r (accessesOf s i rs) := by
  obtain ⟨r', hr', hcomp⟩ := h.sampling_completes hi hrs
  rwa [Option.some.inj (hr.symm.trans hr')]

end OneSampling

section Responses

variable {b : Build} {rom : Memory} {rs : List PinResult}

/-- SAMPLE responds a code where sampling comes to it. -/
theorem sampleAll_of_code {c : Code} (h : responseOf b rom .sample rs = some (.code c)) :
    sampleAll 0#8 8 rs = some (.ok c) := by
  match hx : sampleAll 0#8 8 rs with
  | some (.ok c') => simpa [responseOf, hx] using h
  | some (.error e) => simp [responseOf, hx] at h
  | none => simp [responseOf, hx] at h

theorem positionResponse_injective : Function.Injective positionResponse
  | none, none, _ => rfl
  | some _, some _, h => congrArg some (Response.posSome.inj h)

theorem positionResponse_ne_pinFail (entry : Option Pos) (e : PinErr) : positionResponse entry ≠ .pinFail e := by
  cases entry <;> exact nofun

/-- READ responds as a table entry where sampling comes to the code of one. -/
theorem sampleAll_of_position {entry : Option Pos} (h : responseOf b rom .read rs = some (positionResponse entry)) :
    ∃ c, sampleAll 0#8 8 rs = some (.ok c) ∧ romRead rom c = entry := by
  match hx : sampleAll 0#8 8 rs with
  | some (.ok c) =>
    simp only [responseOf, hx, Option.some.injEq] at h
    exact ⟨c, rfl, positionResponse_injective h⟩
  | some (.error e) =>
    simp only [responseOf, hx, Option.some.injEq] at h
    exact absurd h.symm (positionResponse_ne_pinFail entry e)
  | none => simp [responseOf, hx] at h

/-- An operation responds a failure where sampling comes to it. -/
theorem sampleAll_of_pinFail {i : Instr} {e : PinErr} (hi : ∀ c, i ≠ .lookup c)
    (h : responseOf b rom i rs = some (.pinFail e)) : sampleAll 0#8 8 rs = some (.error e) := by
  cases i with
  | lookup c => exact absurd rfl (hi c)
  | _ =>
    match hx : sampleAll 0#8 8 rs with
    | some (.error e') => simpa [responseOf, hx] using h
    | some (.ok c) => simp [responseOf, hx, positionResponse_ne_pinFail] at h
    | none => simp [responseOf, hx] at h

end Responses

/-- Settles O27: SAMPLE's response is what the sampling comes to, and LOOKUP's is the entry that READ responds. -/
theorem readIsSampleThenLookup : Obligations.ReadIsSampleThenLookup := by
  intro rs sS sL sR restS restL restR acc accL hS hR hrs hrom
  refine ⟨fun c r hcode hL hlookup => ?_, fun e hfail => ?_⟩
  · have hx := sampleAll_of_code (hS.responseOf_of_completes nofun hrs hcode)
    obtain rfl := hlookup.response_unique hL.lookup_completes
    have hread := hR.completes_of_responseOf (r := positionResponse (romRead sL.posRom c)) nofun hrs
      (by simp [responseOf, hx, hrom])
    simpa [accessesOf, hx] using hread
  · have hresponse := hS.responseOf_of_completes nofun hrs hfail
    exact hR.failure_completes nofun hrs (sampleAll_of_pinFail (i := .sample) nofun hresponse)

/-- Where READ responds as a table entry, READ_ANGLE responds the angle for it (R165, R166). -/
theorem readAngle_completes_of_read {rs : List PinResult} {sR sA : State} {restR restA : List ReqWord}
    {acc : List Event} {entry : Option Pos} (hR : Ready sR .read restR rs) (hA : Ready sA .readAngle restA rs)
    (hrs : pinsComplete 8 rs = true) (hrom : sA.posRom = sR.posRom)
    (hread : Completes sR .read restR rs (positionResponse entry) acc) :
    ∃ c, Completes sA .readAngle restA rs (.angle (angleFor sA.build entry)) (angleAccesses sA.cur.id c entry) := by
  obtain ⟨c, hx, rfl⟩ := sampleAll_of_position (hR.responseOf_of_completes nofun hrs hread)
  have hangle := hA.completes_of_responseOf (r := .angle (angleFor sA.build (romRead sR.posRom c))) nofun hrs
    (by simp [responseOf, hx, hrom])
  exact ⟨c, by simpa [accessesOf, hx, hrom] using hangle⟩

/-- Settles O28: the angle for a position, the angle for no position, and the failure that both draw. -/
theorem readAngleIsAMapOfRead : Obligations.ReadAngleIsAMapOfRead := by
  intro rs sR sA restR restA acc hR hA hrs hrom
  refine ⟨fun p hread => ?_, fun hread => ?_, fun e hread => ?_⟩
  · have hangle := readAngle_completes_of_read (entry := some p) hR hA hrs hrom hread
    rwa [angleFor, angleUnit_eq_angleOf] at hangle
  · exact readAngle_completes_of_read (entry := none) hR hA hrs hrom hread
  · have hresponse := hR.responseOf_of_completes nofun hrs hread
    exact hA.failure_completes nofun hrs (sampleAll_of_pinFail (i := .read) nofun hresponse)

end Sys2Proof.Machine
end

section
namespace Sys2Proof.Machine

/-! ### Fixed words and patterns (R73, R163) -/

/-- Settles O4: decoding the ten words computes. -/
theorem specWordsDecode : Obligations.SpecWordsDecode := by
  unfold Obligations.SpecWordsDecode
  decide

/-- Settles O52: the product and the quotient of R161 compute. -/
theorem angleConstants : Obligations.AngleConstants := by
  unfold Obligations.AngleConstants
  decide

/-! ### The range of AngleOf (R161, R162)

The exact line C * p, less PI_F for CENTRED, rises by more than 0.04 with each position, and the roundings move an
angle by 0.001 at most. So the angles grow, and lie between the endpoints, which are exact. -/

/-- What is subtracted from C * p: PI_F for CENTRED (R161). -/
def angleOffset (f : AngleFmt) : AngleConv → ℚ
  | .zeroBased => 0
  | .centred => (piF f).value

/-- The unit in the last place of [4, 8), halved. -/
theorem two_zpow_le (f : AngleFmt) : (2 : ℚ) ^ (2 - fmtPrec f : ℤ) ≤ 0.0004 := by
  cases f <;> norm_num [fmtPrec]

theorem angleOf_near_line (f : AngleFmt) (v : AngleConv) (p : Pos) :
    |(angleOf f v p).value - ((angleStep f).value * p.toNat - angleOffset f v)| ≤ 0.001 := by
  have hbase := (angleBase_error f p).trans (two_zpow_le f)
  cases v with
  | zeroBased =>
    rw [angleOf_zeroBased_value, angleOffset, sub_zero]
    exact hbase.trans (by norm_num)
  | centred =>
    have hsub := (subF_value_error f (exactCentred_lt f p)).trans
      ((zpow_le_zpow_right₀ one_le_two (by omega)).trans (two_zpow_le f))
    rw [angleOf_centred_value, angleOffset]
    rw [abs_le] at *
    constructor <;> linarith

theorem angleStep_ge (f : AngleFmt) : 0.04 ≤ (angleStep f).value := by
  rw [angleStep_value]
  cases f <;> norm_num

/-- The angles grow strictly. -/
theorem angleOf_lt (f : AngleFmt) (v : AngleConv) {p q : Pos} (h : p < q) :
    (angleOf f v p).value < (angleOf f v q).value := by
  have hp := (abs_le.mp (angleOf_near_line f v p)).2
  have hq := (abs_le.mp (angleOf_near_line f v q)).1
  have hstep := angleStep_ge f
  have hgap : (p.toNat : ℚ) + 1 ≤ q.toNat := by exact_mod_cast BitVec.lt_def.mp h
  have hrise : (angleStep f).value * (p.toNat + 1) ≤ (angleStep f).value * q.toNat := by gcongr
  linarith

theorem angleOf_le (f : AngleFmt) (v : AngleConv) {p q : Pos} (h : p ≤ q) :
    (angleOf f v p).value ≤ (angleOf f v q).value := by
  by_cases heq : p = q
  · rw [heq]
  · exact (angleOf_lt f v (BitVec.lt_of_le_ne h heq)).le

/-- Every position is between the first and the last. -/
theorem angleOf_between (f : AngleFmt) (v : AngleConv) (p : Pos) :
    (angleOf f v 0#7).value ≤ (angleOf f v p).value ∧ (angleOf f v p).value ≤ (angleOf f v 127#7).value :=
  ⟨angleOf_le f v (BitVec.le_def.mpr (Nat.zero_le _)),
    angleOf_le f v (BitVec.le_def.mpr (Nat.le_of_lt_succ p.isLt))⟩

/-! The endpoints are exact (R162). -/

theorem angleBase_first (f : AngleFmt) : angleBase f 0#7 = ⟨false, 0, 0⟩ := by
  cases f <;> decide

theorem angleBase_last (f : AngleFmt) : angleBase f 127#7 = twoPiF f := by
  cases f <;> decide

theorem subF_angleBase_first (f : AngleFmt) : subF f (angleBase f 0#7) (piF f) = { piF f with neg := true } := by
  cases f <;> decide

theorem subF_angleBase_last (f : AngleFmt) : subF f (angleBase f 127#7) (piF f) = piF f := by
  cases f <;> decide

theorem toAngle_zero (f : AngleFmt) : (⟨false, 0, 0⟩ : Fp).toAngle f = Angle.zero f := by
  cases f <;> rfl

theorem angleZero_value (f : AngleFmt) : (Angle.zero f).value = 0 := by
  rw [← toAngle_zero, zero_toAngle_value]

theorem angleOf_zeroBased_first (f : AngleFmt) : angleOf f .zeroBased 0#7 = Angle.zero f := by
  rw [angleOf, angleBase_first, toAngle_zero]

/-- ZERO_BASED angles are in [0, TWO_PI_F]. -/
theorem angleOf_zeroBased_range (f : AngleFmt) (p : Pos) :
    0 ≤ (angleOf f .zeroBased p).value ∧ (angleOf f .zeroBased p).value ≤ (twoPiF f).value := by
  have h := angleOf_between f .zeroBased p
  rwa [angleOf_zeroBased_first, angleZero_value, angleOf_zeroBased_value f 127#7, angleBase_last] at h

theorem negPiF_value (f : AngleFmt) : ({ piF f with neg := true } : Fp).value = -(piF f).value := by
  simp [Fp.value, (piF_sign_exp f).1]

/-- CENTRED angles are in [-PI_F, PI_F]. -/
theorem angleOf_centred_range (f : AngleFmt) (p : Pos) :
    -(piF f).value ≤ (angleOf f .centred p).value ∧ (angleOf f .centred p).value ≤ (piF f).value := by
  have h := angleOf_between f .centred p
  rwa [angleOf_centred_value f 0#7, angleOf_centred_value f 127#7, subF_angleBase_first, subF_angleBase_last,
    negPiF_value] at h

/-- PI_F is between 63 and 64 steps, and not near to either. -/
theorem piF_between_steps (f : AngleFmt) :
    (angleStep f).value * 63 + 0.02 ≤ (piF f).value ∧ (piF f).value + 0.02 ≤ (angleStep f).value * 64 := by
  rw [angleStep_value, piF_value]
  cases f <;> norm_num

/-- No position is in the middle of [-PI_F, PI_F]: up to 63 the angle is below 0, and from 64 on above. -/
theorem angleOf_centred_ne_zero (f : AngleFmt) (p : Pos) : (angleOf f .centred p).value ≠ 0 := by
  obtain ⟨hlow, hhigh⟩ := abs_le.mp (angleOf_near_line f .centred p)
  obtain ⟨hpi, hpi'⟩ := piF_between_steps f
  have hstep := (angleStep_bounds f).1
  rw [angleOffset] at hlow hhigh
  obtain hp | hp : p.toNat ≤ 63 ∨ 64 ≤ p.toNat := by omega
  · have hline : (angleStep f).value * p.toNat ≤ (angleStep f).value * 63 := by gcongr; exact_mod_cast hp
    exact ne_of_lt (by linarith)
  · have hline : (angleStep f).value * 64 ≤ (angleStep f).value * p.toNat := by gcongr; exact_mod_cast hp
    exact ne_of_gt (by linarith)

/-- Settles O55: the endpoints compute, and between them the roundings are smaller than the steps. -/
theorem angleRangeAndEndpoints : Obligations.AngleRangeAndEndpoints := by
  intro f
  refine ⟨angleOf_zeroBased_first f, ?_, ?_, ?_, fun v _ _ => angleOf_lt f v, angleOf_zeroBased_range f,
    fun p => ?_⟩
  · rw [angleOf, angleBase_last]
  · rw [angleOf, subF_angleBase_first]
  · rw [angleOf, subF_angleBase_last]
  · obtain ⟨hlow, hhigh⟩ := angleOf_centred_range f p
    exact ⟨hlow, hhigh, angleOf_centred_ne_zero f p⟩

/-! ### The fallback angle (R164) -/

theorem fallback_ten_value (v : AngleConv) (f : AngleFmt) (u : AngleUnit) :
    (fallbackAngle ⟨.ten, v, f, u⟩).value = 10 := by
  cases f with
  | binary64 =>
    change (Fp.ofPattern .binary64 0x4024000000000000).value = 10
    rw [show Fp.ofPattern .binary64 0x4024000000000000 = ⟨false, 5 * 2 ^ 50, -49⟩ by decide]
    norm_num [Fp.value]
  | binary32 =>
    change (Fp.ofPattern .binary32 0x41200000).value = 10
    rw [show Fp.ofPattern .binary32 0x41200000 = ⟨false, 5 * 2 ^ 21, -20⟩ by decide]
    norm_num [Fp.value]

theorem fallback_zero (v : AngleConv) (f : AngleFmt) (u : AngleUnit) :
    fallbackAngle ⟨.zero, v, f, u⟩ = Angle.zero f := rfl

theorem twoPiF_lt_ten (f : AngleFmt) : (twoPiF f).value < 10 := by
  have hnear := (abs_le.mp (angleBase_error f 127#7)).2
  have hstep := (exactBase_bounds f 127#7).2
  have hunit := two_zpow_le f
  rw [ofNat_value] at hstep
  rw [angleBase_last] at hnear
  linarith

/-- Every angle is below 10.0. -/
theorem angleOf_lt_ten (f : AngleFmt) (v : AngleConv) (p : Pos) : (angleOf f v p).value < 10 := by
  cases v with
  | zeroBased => exact (angleOf_zeroBased_range f p).2.trans_lt (twoPiF_lt_ten f)
  | centred => exact ((angleOf_centred_range f p).2.trans (piF_bounds f).2).trans_lt (by norm_num)

/-- Settles O58: the fallback's value is no angle's, except that 0.0 is the first ZERO_BASED one. -/
theorem fallbackAgainstTheAngles : Obligations.FallbackAgainstTheAngles := by
  refine ⟨fun v u => ⟨rfl, rfl, rfl, rfl⟩, fun v f u => ⟨fallback_ten_value v f u, ?_, twoPiF_lt_ten f⟩,
    fun v f u p heq => ?_, fun f u => ?_, fun f u p heq => ?_⟩
  · rw [fallback_zero, angleZero_value]
  · exact (angleOf_lt_ten f v p).ne (by rw [← heq, fallback_ten_value])
  · rw [fallback_zero, angleOf_zeroBased_first]
  · exact angleOf_centred_ne_zero f p (by rw [← heq, fallback_zero, angleZero_value])

end Sys2Proof.Machine
end
